-- ==== Sys2Proof/Word.lean ====
section
/-! DEFINITION. The two widths of the hardware: 8-bit data and 16-bit addresses (00_scope.md R8). -/

namespace Sys2Proof

/-- An 8-bit value: A, X, Y, SP, P and every byte on the bus (R8). -/
abbrev Byte := BitVec 8

/-- A 16-bit value: PC and every bus address (R8). Its arithmetic wraps modulo 65536 (R9, R51). -/
abbrev Addr := BitVec 16

end Sys2Proof
end

