-- ==== Sys2Proof/Syntax.lean ====
section
/-! DEFINITION. The instructions: one constructor per mnemonic of spec/opcode_table.json, with the operand of its
address mode as the argument (30_encoding.md R70, R71). The table's rows of one mnemonic are that mnemonic in its
several address modes; WellFormed.lean says which modes each has (R85; log 10). -/

namespace Sys2Proof

/-- An address mode that names a memory byte, with its operand byte or operand word (R74 to R79, R81, R82). -/
inductive MemMode where
  /-- Zero page, `$nn` (R74). -/
  | zp (b : Byte)
  /-- Zero page,X, `$nn,X` (R75). -/
  | zpx (b : Byte)
  /-- Zero page,Y, `$nn,Y` (R76). -/
  | zpy (b : Byte)
  /-- Absolute, `$nnnn` (R77). -/
  | abs (w : Addr)
  /-- Absolute,X, `$nnnn,X` (R78). -/
  | absx (w : Addr)
  /-- Absolute,Y, `$nnnn,Y` (R79). -/
  | absy (w : Addr)
  /-- Indexed indirect, `($nn,X)` (R81). -/
  | indx (b : Byte)
  /-- Indirect indexed, `($nn),Y` (R82). -/
  | indy (b : Byte)
  deriving DecidableEq, Repr

/-- The operand of an instruction that reads: a byte of the instruction itself, or a memory byte. -/
inductive ReadMode where
  /-- Immediate, `#$nn` (R73). -/
  | imm (v : Byte)
  /-- A byte of memory. -/
  | mem (m : MemMode)
  deriving DecidableEq, Repr

/-- The operand of a shift or rotate: the accumulator (R72) or a memory byte. -/
inductive ShiftMode where
  /-- Accumulator, `A` (R72). -/
  | acc
  /-- A byte of memory. -/
  | mem (m : MemMode)
  deriving DecidableEq, Repr

/-- The two forms of JMP. -/
inductive JumpMode where
  /-- Absolute: the word is the target (R77). -/
  | abs (w : Addr)
  /-- Indirect: the word is where the target lies (R80). -/
  | ind (w : Addr)
  deriving DecidableEq, Repr

/-- The instructions of the core. -/
inductive Instr where
  -- Loads, stores, transfers (40_load_store_transfer.md)
  | lda (m : ReadMode)
  | ldx (m : ReadMode)
  | ldy (m : ReadMode)
  | sta (m : MemMode)
  | stx (m : MemMode)
  | sty (m : MemMode)
  | tax
  | tay
  | tsx
  | txa
  | txs
  | tya
  -- Stack (41_stack.md)
  | pha
  | php
  | pla
  | plp
  -- Arithmetic and logic (42_arith_logic.md)
  | adc (m : ReadMode)
  | sbc (m : ReadMode)
  | and (m : ReadMode)
  | ora (m : ReadMode)
  | eor (m : ReadMode)
  | cmp (m : ReadMode)
  | bit (m : MemMode)
  | cpx (m : ReadMode)
  | cpy (m : ReadMode)
  | inc (m : MemMode)
  | dec (m : MemMode)
  | inx
  | iny
  | dex
  | dey
  -- Shifts and rotates (43_shift_rotate.md)
  | asl (m : ShiftMode)
  | lsr (m : ShiftMode)
  | rol (m : ShiftMode)
  | ror (m : ShiftMode)
  -- Control transfer (44_control_transfer.md); a branch carries its offset byte (R83)
  | jmp (m : JumpMode)
  | jsr (w : Addr)
  | rts
  | bpl (off : Byte)
  | bmi (off : Byte)
  | bvc (off : Byte)
  | bvs (off : Byte)
  | bcc (off : Byte)
  | bcs (off : Byte)
  | bne (off : Byte)
  | beq (off : Byte)
  | brk
  | rti
  -- Flags, NOP, unofficial opcodes (45_flags_misc.md)
  | clc
  | sec
  | cli
  | sei
  | clv
  | cld
  | sed
  | nop
  /-- One of the 105 opcode bytes that are not official (R87, R198). -/
  | unofficial (op : Byte)
  deriving DecidableEq, Repr

end Sys2Proof
end

