-- ==== Sys2Proof/WellFormed.lean ====
section
/-! DEFINITION. Which terms are instructions: the address modes each mnemonic has in the opcode map (30_encoding.md
R85), and the 105 bytes that are unofficial (R87). -/

namespace Sys2Proof

/-- Every mode but zero page,Y: the memory modes of ADC AND CMP EOR LDA ORA SBC STA (R85, R103). -/
def MemMode.isAlu : MemMode → Bool
  | .zp _ | .zpx _ | .abs _ | .absx _ | .absy _ | .indx _ | .indy _ => true
  | .zpy _ => false

/-- The memory modes of ASL LSR ROL ROR INC DEC, and of LDY (R102, R139, R160). -/
def MemMode.isModify : MemMode → Bool
  | .zp _ | .zpx _ | .abs _ | .absx _ => true
  | .zpy _ | .absy _ | .indx _ | .indy _ => false

/-- The memory modes of LDX (R101). -/
def MemMode.isLdx : MemMode → Bool
  | .zp _ | .zpy _ | .abs _ | .absy _ => true
  | .zpx _ | .absx _ | .indx _ | .indy _ => false

/-- The memory modes of STX (R104). -/
def MemMode.isStx : MemMode → Bool
  | .zp _ | .zpy _ | .abs _ => true
  | .zpx _ | .absx _ | .absy _ | .indx _ | .indy _ => false

/-- The memory modes of STY (R105). -/
def MemMode.isSty : MemMode → Bool
  | .zp _ | .zpx _ | .abs _ => true
  | .zpy _ | .absx _ | .absy _ | .indx _ | .indy _ => false

/-- The memory modes of BIT, CPX and CPY (R136 to R138). -/
def MemMode.isPlain : MemMode → Bool
  | .zp _ | .abs _ => true
  | .zpx _ | .zpy _ | .absx _ | .absy _ | .indx _ | .indy _ => false

/-- A reading operand whose memory mode passes `ok`; immediate is always one of its modes. -/
def ReadMode.okWith (ok : MemMode → Bool) : ReadMode → Bool
  | .imm _ => true
  | .mem m => ok m

/-- A shift operand: the accumulator, or a memory mode of the read-modify-write instructions. -/
def ShiftMode.ok : ShiftMode → Bool
  | .acc => true
  | .mem m => m.isModify

/-- The 105 unofficial opcode bytes, as R87 lists them. -/
def unofficialOpcodes : List Byte :=
  [0x02, 0x03, 0x04, 0x07, 0x0B, 0x0C, 0x0F, 0x12, 0x13, 0x14, 0x17, 0x1A, 0x1B, 0x1C, 0x1F] ++
  [0x22, 0x23, 0x27, 0x2B, 0x2F, 0x32, 0x33, 0x34, 0x37, 0x3A, 0x3B, 0x3C, 0x3F, 0x42, 0x43] ++
  [0x44, 0x47, 0x4B, 0x4F, 0x52, 0x53, 0x54, 0x57, 0x5A, 0x5B, 0x5C, 0x5F, 0x62, 0x63, 0x64] ++
  [0x67, 0x6B, 0x6F, 0x72, 0x73, 0x74, 0x77, 0x7A, 0x7B, 0x7C, 0x7F, 0x80, 0x82, 0x83, 0x87] ++
  [0x89, 0x8B, 0x8F, 0x92, 0x93, 0x97, 0x9B, 0x9C, 0x9E, 0x9F, 0xA3, 0xA7, 0xAB, 0xAF, 0xB2] ++
  [0xB3, 0xB7, 0xBB, 0xBF, 0xC2, 0xC3, 0xC7, 0xCB, 0xCF, 0xD2, 0xD3, 0xD4, 0xD7, 0xDA, 0xDB] ++
  [0xDC, 0xDF, 0xE2, 0xE3, 0xE7, 0xEB, 0xEF, 0xF2, 0xF3, 0xF4, 0xF7, 0xFA, 0xFB, 0xFC, 0xFF]

/-- The term is an instruction of the opcode map R85, or an unofficial byte of R87. -/
def Instr.wf : Instr → Bool
  | .lda m | .adc m | .sbc m | .and m | .ora m | .eor m | .cmp m => m.okWith MemMode.isAlu
  | .ldx m => m.okWith MemMode.isLdx
  | .ldy m => m.okWith MemMode.isModify
  | .cpx m | .cpy m => m.okWith MemMode.isPlain
  | .sta m => m.isAlu
  | .stx m => m.isStx
  | .sty m => m.isSty
  | .bit m => m.isPlain
  | .inc m | .dec m => m.isModify
  | .asl m | .lsr m | .rol m | .ror m => m.ok
  | .unofficial op => unofficialOpcodes.contains op
  | .tax | .tay | .tsx | .txa | .txs | .tya | .pha | .php | .pla | .plp
  | .inx | .iny | .dex | .dey | .jmp _ | .jsr _ | .rts
  | .bpl _ | .bmi _ | .bvc _ | .bvs _ | .bcc _ | .bcs _ | .bne _ | .beq _ | .brk | .rti
  | .clc | .sec | .cli | .sei | .clv | .cld | .sed | .nop => true

end Sys2Proof
end

