-- ==== Sys2Proof/Decode.lean ====
section
/-! DEFINITION. Reading an instruction from bytes (30_encoding.md R70 to R89), its length, and the encoder, written
from the per-mnemonic "Encoding" lines of 40_ to 45_ rather than from the decoder. -/

namespace Sys2Proof

/-- The 16-bit value with high byte `hi` and low byte `lo` (00_scope.md R10; little-endian operands, R52). -/
def joinBytes (hi lo : Byte) : Addr := hi ++ lo

/-- Bits 15:8 of a word. -/
def highByte (w : Addr) : Byte := w.extractLsb' 8 8

/-- Bits 7:0 of a word. -/
def lowByte (w : Addr) : Byte := w.extractLsb' 0 8

/-- The opcode map R85: the instruction an opcode byte selects, with the bytes `b1` and `b2` after it as its operand
where the mode has one. A byte that R85 marks `--` is unofficial (R87), so decoding is total (R88). -/
def decodeOpcode (op b1 b2 : Byte) : Instr :=
  match op.toNat with
  | 0x00 => .brk
  | 0x01 => .ora (.mem (.indx b1))
  | 0x05 => .ora (.mem (.zp b1))
  | 0x06 => .asl (.mem (.zp b1))
  | 0x08 => .php
  | 0x09 => .ora (.imm b1)
  | 0x0A => .asl .acc
  | 0x0D => .ora (.mem (.abs (joinBytes b2 b1)))
  | 0x0E => .asl (.mem (.abs (joinBytes b2 b1)))
  | 0x10 => .bpl b1
  | 0x11 => .ora (.mem (.indy b1))
  | 0x15 => .ora (.mem (.zpx b1))
  | 0x16 => .asl (.mem (.zpx b1))
  | 0x18 => .clc
  | 0x19 => .ora (.mem (.absy (joinBytes b2 b1)))
  | 0x1D => .ora (.mem (.absx (joinBytes b2 b1)))
  | 0x1E => .asl (.mem (.absx (joinBytes b2 b1)))
  | 0x20 => .jsr (joinBytes b2 b1)
  | 0x21 => .and (.mem (.indx b1))
  | 0x24 => .bit (.zp b1)
  | 0x25 => .and (.mem (.zp b1))
  | 0x26 => .rol (.mem (.zp b1))
  | 0x28 => .plp
  | 0x29 => .and (.imm b1)
  | 0x2A => .rol .acc
  | 0x2C => .bit (.abs (joinBytes b2 b1))
  | 0x2D => .and (.mem (.abs (joinBytes b2 b1)))
  | 0x2E => .rol (.mem (.abs (joinBytes b2 b1)))
  | 0x30 => .bmi b1
  | 0x31 => .and (.mem (.indy b1))
  | 0x35 => .and (.mem (.zpx b1))
  | 0x36 => .rol (.mem (.zpx b1))
  | 0x38 => .sec
  | 0x39 => .and (.mem (.absy (joinBytes b2 b1)))
  | 0x3D => .and (.mem (.absx (joinBytes b2 b1)))
  | 0x3E => .rol (.mem (.absx (joinBytes b2 b1)))
  | 0x40 => .rti
  | 0x41 => .eor (.mem (.indx b1))
  | 0x45 => .eor (.mem (.zp b1))
  | 0x46 => .lsr (.mem (.zp b1))
  | 0x48 => .pha
  | 0x49 => .eor (.imm b1)
  | 0x4A => .lsr .acc
  | 0x4C => .jmp (.abs (joinBytes b2 b1))
  | 0x4D => .eor (.mem (.abs (joinBytes b2 b1)))
  | 0x4E => .lsr (.mem (.abs (joinBytes b2 b1)))
  | 0x50 => .bvc b1
  | 0x51 => .eor (.mem (.indy b1))
  | 0x55 => .eor (.mem (.zpx b1))
  | 0x56 => .lsr (.mem (.zpx b1))
  | 0x58 => .cli
  | 0x59 => .eor (.mem (.absy (joinBytes b2 b1)))
  | 0x5D => .eor (.mem (.absx (joinBytes b2 b1)))
  | 0x5E => .lsr (.mem (.absx (joinBytes b2 b1)))
  | 0x60 => .rts
  | 0x61 => .adc (.mem (.indx b1))
  | 0x65 => .adc (.mem (.zp b1))
  | 0x66 => .ror (.mem (.zp b1))
  | 0x68 => .pla
  | 0x69 => .adc (.imm b1)
  | 0x6A => .ror .acc
  | 0x6C => .jmp (.ind (joinBytes b2 b1))
  | 0x6D => .adc (.mem (.abs (joinBytes b2 b1)))
  | 0x6E => .ror (.mem (.abs (joinBytes b2 b1)))
  | 0x70 => .bvs b1
  | 0x71 => .adc (.mem (.indy b1))
  | 0x75 => .adc (.mem (.zpx b1))
  | 0x76 => .ror (.mem (.zpx b1))
  | 0x78 => .sei
  | 0x79 => .adc (.mem (.absy (joinBytes b2 b1)))
  | 0x7D => .adc (.mem (.absx (joinBytes b2 b1)))
  | 0x7E => .ror (.mem (.absx (joinBytes b2 b1)))
  | 0x81 => .sta (.indx b1)
  | 0x84 => .sty (.zp b1)
  | 0x85 => .sta (.zp b1)
  | 0x86 => .stx (.zp b1)
  | 0x88 => .dey
  | 0x8A => .txa
  | 0x8C => .sty (.abs (joinBytes b2 b1))
  | 0x8D => .sta (.abs (joinBytes b2 b1))
  | 0x8E => .stx (.abs (joinBytes b2 b1))
  | 0x90 => .bcc b1
  | 0x91 => .sta (.indy b1)
  | 0x94 => .sty (.zpx b1)
  | 0x95 => .sta (.zpx b1)
  | 0x96 => .stx (.zpy b1)
  | 0x98 => .tya
  | 0x99 => .sta (.absy (joinBytes b2 b1))
  | 0x9A => .txs
  | 0x9D => .sta (.absx (joinBytes b2 b1))
  | 0xA0 => .ldy (.imm b1)
  | 0xA1 => .lda (.mem (.indx b1))
  | 0xA2 => .ldx (.imm b1)
  | 0xA4 => .ldy (.mem (.zp b1))
  | 0xA5 => .lda (.mem (.zp b1))
  | 0xA6 => .ldx (.mem (.zp b1))
  | 0xA8 => .tay
  | 0xA9 => .lda (.imm b1)
  | 0xAA => .tax
  | 0xAC => .ldy (.mem (.abs (joinBytes b2 b1)))
  | 0xAD => .lda (.mem (.abs (joinBytes b2 b1)))
  | 0xAE => .ldx (.mem (.abs (joinBytes b2 b1)))
  | 0xB0 => .bcs b1
  | 0xB1 => .lda (.mem (.indy b1))
  | 0xB4 => .ldy (.mem (.zpx b1))
  | 0xB5 => .lda (.mem (.zpx b1))
  | 0xB6 => .ldx (.mem (.zpy b1))
  | 0xB8 => .clv
  | 0xB9 => .lda (.mem (.absy (joinBytes b2 b1)))
  | 0xBA => .tsx
  | 0xBC => .ldy (.mem (.absx (joinBytes b2 b1)))
  | 0xBD => .lda (.mem (.absx (joinBytes b2 b1)))
  | 0xBE => .ldx (.mem (.absy (joinBytes b2 b1)))
  | 0xC0 => .cpy (.imm b1)
  | 0xC1 => .cmp (.mem (.indx b1))
  | 0xC4 => .cpy (.mem (.zp b1))
  | 0xC5 => .cmp (.mem (.zp b1))
  | 0xC6 => .dec (.zp b1)
  | 0xC8 => .iny
  | 0xC9 => .cmp (.imm b1)
  | 0xCA => .dex
  | 0xCC => .cpy (.mem (.abs (joinBytes b2 b1)))
  | 0xCD => .cmp (.mem (.abs (joinBytes b2 b1)))
  | 0xCE => .dec (.abs (joinBytes b2 b1))
  | 0xD0 => .bne b1
  | 0xD1 => .cmp (.mem (.indy b1))
  | 0xD5 => .cmp (.mem (.zpx b1))
  | 0xD6 => .dec (.zpx b1)
  | 0xD8 => .cld
  | 0xD9 => .cmp (.mem (.absy (joinBytes b2 b1)))
  | 0xDD => .cmp (.mem (.absx (joinBytes b2 b1)))
  | 0xDE => .dec (.absx (joinBytes b2 b1))
  | 0xE0 => .cpx (.imm b1)
  | 0xE1 => .sbc (.mem (.indx b1))
  | 0xE4 => .cpx (.mem (.zp b1))
  | 0xE5 => .sbc (.mem (.zp b1))
  | 0xE6 => .inc (.zp b1)
  | 0xE8 => .inx
  | 0xE9 => .sbc (.imm b1)
  | 0xEA => .nop
  | 0xEC => .cpx (.mem (.abs (joinBytes b2 b1)))
  | 0xED => .sbc (.mem (.abs (joinBytes b2 b1)))
  | 0xEE => .inc (.abs (joinBytes b2 b1))
  | 0xF0 => .beq b1
  | 0xF1 => .sbc (.mem (.indy b1))
  | 0xF5 => .sbc (.mem (.zpx b1))
  | 0xF6 => .inc (.zpx b1)
  | 0xF8 => .sed
  | 0xF9 => .sbc (.mem (.absy (joinBytes b2 b1)))
  | 0xFD => .sbc (.mem (.absx (joinBytes b2 b1)))
  | 0xFE => .inc (.absx (joinBytes b2 b1))
  | _ => .unofficial op

/-- The bytes a memory mode's operand takes: two for the absolute modes, else one (R71). -/
def MemMode.operandLength : MemMode → Nat
  | .zp _ | .zpx _ | .zpy _ | .indx _ | .indy _ => 1
  | .abs _ | .absx _ | .absy _ => 2

/-- The length of an instruction with this reading operand (R71). -/
def ReadMode.length : ReadMode → Nat
  | .imm _ => 2
  | .mem m => 1 + m.operandLength

/-- The length of a shift or rotate (R71). -/
def ShiftMode.length : ShiftMode → Nat
  | .acc => 1
  | .mem m => 1 + m.operandLength

/-- `len`, the length of an instruction in bytes (R71). BRK is one byte long; the byte after it is skipped by its
return address, not read (R181). -/
def Instr.length : Instr → Nat
  | .lda m | .ldx m | .ldy m | .adc m | .sbc m | .and m | .ora m | .eor m | .cmp m | .cpx m | .cpy m => m.length
  | .sta m | .stx m | .sty m | .bit m | .inc m | .dec m => 1 + m.operandLength
  | .asl m | .lsr m | .rol m | .ror m => m.length
  | .jmp _ | .jsr _ => 3
  | .bpl _ | .bmi _ | .bvc _ | .bvs _ | .bcc _ | .bcs _ | .bne _ | .beq _ => 2
  | .tax | .tay | .tsx | .txa | .txs | .tya | .pha | .php | .pla | .plp | .inx | .iny | .dex | .dey
  | .rts | .brk | .rti | .clc | .sec | .cli | .sei | .clv | .cld | .sed | .nop | .unofficial _ => 1

/-- The length told from the opcode byte alone (R71). -/
def opcodeLength (op : Byte) : Nat := (decodeOpcode op 0 0).length

/-- Why a list of bytes is not the start of an instruction. -/
inductive DecodeError where
  /-- There is no byte at all. -/
  | empty
  /-- The opcode byte asks for more operand bytes than the list has. -/
  | truncated (op : Byte)
  deriving DecidableEq, Repr

/-- The instruction at the front of a list of bytes, and the bytes after it. -/
def decode : List Byte → Except DecodeError (Instr × List Byte)
  | [] => .error .empty
  | op :: rest =>
    match opcodeLength op, rest with
    | 1, rest => .ok (decodeOpcode op 0 0, rest)
    | 2, b1 :: rest => .ok (decodeOpcode op b1 0, rest)
    | 3, b1 :: b2 :: rest => .ok (decodeOpcode op b1 b2, rest)
    | _, _ => .error (.truncated op)

/-! ### The encoder -/

/-- The opcode bytes of one mnemonic by address mode; a mode that is absent is `none`. -/
structure ModeOpcodes where
  acc : Option Byte := none
  imm : Option Byte := none
  zp : Option Byte := none
  zpx : Option Byte := none
  zpy : Option Byte := none
  abs : Option Byte := none
  absx : Option Byte := none
  absy : Option Byte := none
  indx : Option Byte := none
  indy : Option Byte := none
  deriving DecidableEq, Repr

/-- The opcode byte of a memory mode. -/
def ModeOpcodes.ofMem (t : ModeOpcodes) : MemMode → Option Byte
  | .zp _ => t.zp
  | .zpx _ => t.zpx
  | .zpy _ => t.zpy
  | .abs _ => t.abs
  | .absx _ => t.absx
  | .absy _ => t.absy
  | .indx _ => t.indx
  | .indy _ => t.indy

/-- The opcode byte of a reading mode. -/
def ModeOpcodes.ofRead (t : ModeOpcodes) : ReadMode → Option Byte
  | .imm _ => t.imm
  | .mem m => t.ofMem m

/-- The opcode byte of a shift mode. -/
def ModeOpcodes.ofShift (t : ModeOpcodes) : ShiftMode → Option Byte
  | .acc => t.acc
  | .mem m => t.ofMem m

/-- LDA (R100). -/
def ldaOpcodes : ModeOpcodes :=
  { indx := some 0xA1, zp := some 0xA5, imm := some 0xA9, abs := some 0xAD, indy := some 0xB1, zpx := some 0xB5, absy := some 0xB9, absx := some 0xBD }
/-- LDX (R101). -/
def ldxOpcodes : ModeOpcodes :=
  { imm := some 0xA2, zp := some 0xA6, abs := some 0xAE, zpy := some 0xB6, absy := some 0xBE }
/-- LDY (R102). -/
def ldyOpcodes : ModeOpcodes :=
  { imm := some 0xA0, zp := some 0xA4, abs := some 0xAC, zpx := some 0xB4, absx := some 0xBC }
/-- STA (R103). -/
def staOpcodes : ModeOpcodes :=
  { indx := some 0x81, zp := some 0x85, abs := some 0x8D, indy := some 0x91, zpx := some 0x95, absy := some 0x99, absx := some 0x9D }
/-- STX (R104). -/
def stxOpcodes : ModeOpcodes :=
  { zp := some 0x86, abs := some 0x8E, zpy := some 0x96 }
/-- STY (R105). -/
def styOpcodes : ModeOpcodes :=
  { zp := some 0x84, abs := some 0x8C, zpx := some 0x94 }
/-- ADC (R130). -/
def adcOpcodes : ModeOpcodes :=
  { indx := some 0x61, zp := some 0x65, imm := some 0x69, abs := some 0x6D, indy := some 0x71, zpx := some 0x75, absy := some 0x79, absx := some 0x7D }
/-- SBC (R131). -/
def sbcOpcodes : ModeOpcodes :=
  { indx := some 0xE1, zp := some 0xE5, imm := some 0xE9, abs := some 0xED, indy := some 0xF1, zpx := some 0xF5, absy := some 0xF9, absx := some 0xFD }
/-- AND (R132). -/
def andOpcodes : ModeOpcodes :=
  { indx := some 0x21, zp := some 0x25, imm := some 0x29, abs := some 0x2D, indy := some 0x31, zpx := some 0x35, absy := some 0x39, absx := some 0x3D }
/-- ORA (R133). -/
def oraOpcodes : ModeOpcodes :=
  { indx := some 0x01, zp := some 0x05, imm := some 0x09, abs := some 0x0D, indy := some 0x11, zpx := some 0x15, absy := some 0x19, absx := some 0x1D }
/-- EOR (R134). -/
def eorOpcodes : ModeOpcodes :=
  { indx := some 0x41, zp := some 0x45, imm := some 0x49, abs := some 0x4D, indy := some 0x51, zpx := some 0x55, absy := some 0x59, absx := some 0x5D }
/-- CMP (R135). -/
def cmpOpcodes : ModeOpcodes :=
  { indx := some 0xC1, zp := some 0xC5, imm := some 0xC9, abs := some 0xCD, indy := some 0xD1, zpx := some 0xD5, absy := some 0xD9, absx := some 0xDD }
/-- BIT (R136). -/
def bitOpcodes : ModeOpcodes :=
  { zp := some 0x24, abs := some 0x2C }
/-- CPX (R137). -/
def cpxOpcodes : ModeOpcodes :=
  { imm := some 0xE0, zp := some 0xE4, abs := some 0xEC }
/-- CPY (R138). -/
def cpyOpcodes : ModeOpcodes :=
  { imm := some 0xC0, zp := some 0xC4, abs := some 0xCC }
/-- INC (R139). -/
def incOpcodes : ModeOpcodes :=
  { zp := some 0xE6, abs := some 0xEE, zpx := some 0xF6, absx := some 0xFE }
/-- DEC (R140). -/
def decOpcodes : ModeOpcodes :=
  { zp := some 0xC6, abs := some 0xCE, zpx := some 0xD6, absx := some 0xDE }
/-- ASL (R160). -/
def aslOpcodes : ModeOpcodes :=
  { zp := some 0x06, acc := some 0x0A, abs := some 0x0E, zpx := some 0x16, absx := some 0x1E }
/-- LSR (R161). -/
def lsrOpcodes : ModeOpcodes :=
  { zp := some 0x46, acc := some 0x4A, abs := some 0x4E, zpx := some 0x56, absx := some 0x5E }
/-- ROL (R162). -/
def rolOpcodes : ModeOpcodes :=
  { zp := some 0x26, acc := some 0x2A, abs := some 0x2E, zpx := some 0x36, absx := some 0x3E }
/-- ROR (R163). -/
def rorOpcodes : ModeOpcodes :=
  { zp := some 0x66, acc := some 0x6A, abs := some 0x6E, zpx := some 0x76, absx := some 0x7E }

/-- The opcode byte of an instruction, or `none` for a mnemonic and mode that no opcode stands for. -/
def Instr.opcode : Instr → Option Byte
  | .lda m => ldaOpcodes.ofRead m
  | .ldx m => ldxOpcodes.ofRead m
  | .ldy m => ldyOpcodes.ofRead m
  | .sta m => staOpcodes.ofMem m
  | .stx m => stxOpcodes.ofMem m
  | .sty m => styOpcodes.ofMem m
  | .tax => some 0xAA
  | .tay => some 0xA8
  | .tsx => some 0xBA
  | .txa => some 0x8A
  | .txs => some 0x9A
  | .tya => some 0x98
  | .pha => some 0x48
  | .php => some 0x08
  | .pla => some 0x68
  | .plp => some 0x28
  | .adc m => adcOpcodes.ofRead m
  | .sbc m => sbcOpcodes.ofRead m
  | .and m => andOpcodes.ofRead m
  | .ora m => oraOpcodes.ofRead m
  | .eor m => eorOpcodes.ofRead m
  | .cmp m => cmpOpcodes.ofRead m
  | .bit m => bitOpcodes.ofMem m
  | .cpx m => cpxOpcodes.ofRead m
  | .cpy m => cpyOpcodes.ofRead m
  | .inc m => incOpcodes.ofMem m
  | .dec m => decOpcodes.ofMem m
  | .inx => some 0xE8
  | .iny => some 0xC8
  | .dex => some 0xCA
  | .dey => some 0x88
  | .asl m => aslOpcodes.ofShift m
  | .lsr m => lsrOpcodes.ofShift m
  | .rol m => rolOpcodes.ofShift m
  | .ror m => rorOpcodes.ofShift m
  | .jmp (.abs _) => some 0x4C
  | .jmp (.ind _) => some 0x6C
  | .jsr _ => some 0x20
  | .rts => some 0x60
  | .bpl _ => some 0x10
  | .bmi _ => some 0x30
  | .bvc _ => some 0x50
  | .bvs _ => some 0x70
  | .bcc _ => some 0x90
  | .bcs _ => some 0xB0
  | .bne _ => some 0xD0
  | .beq _ => some 0xF0
  | .brk => some 0x00
  | .rti => some 0x40
  | .clc => some 0x18
  | .sec => some 0x38
  | .cli => some 0x58
  | .sei => some 0x78
  | .clv => some 0xB8
  | .cld => some 0xD8
  | .sed => some 0xF8
  | .nop => some 0xEA
  | .unofficial op => some op

/-- A word as its two operand bytes, low byte first (R52). -/
def wordBytesLe (w : Addr) : List Byte := [lowByte w, highByte w]

/-- The operand bytes of a memory mode. -/
def MemMode.operandBytes : MemMode → List Byte
  | .zp b | .zpx b | .zpy b | .indx b | .indy b => [b]
  | .abs w | .absx w | .absy w => wordBytesLe w

/-- The operand bytes of a reading mode. -/
def ReadMode.operandBytes : ReadMode → List Byte
  | .imm v => [v]
  | .mem m => m.operandBytes

/-- The operand bytes of a shift mode. -/
def ShiftMode.operandBytes : ShiftMode → List Byte
  | .acc => []
  | .mem m => m.operandBytes

/-- The operand bytes of an instruction (R70). -/
def Instr.operandBytes : Instr → List Byte
  | .lda m | .ldx m | .ldy m | .adc m | .sbc m | .and m | .ora m | .eor m | .cmp m | .cpx m | .cpy m => m.operandBytes
  | .sta m | .stx m | .sty m | .bit m | .inc m | .dec m => m.operandBytes
  | .asl m | .lsr m | .rol m | .ror m => m.operandBytes
  | .jmp (.abs w) | .jmp (.ind w) | .jsr w => wordBytesLe w
  | .bpl off | .bmi off | .bvc off | .bvs off | .bcc off | .bcs off | .bne off | .beq off => [off]
  | .tax | .tay | .tsx | .txa | .txs | .tya | .pha | .php | .pla | .plp | .inx | .iny | .dex | .dey
  | .rts | .brk | .rti | .clc | .sec | .cli | .sei | .clv | .cld | .sed | .nop | .unofficial _ => []

/-- The bytes of an instruction; nothing for a term that no opcode stands for. -/
def encode (i : Instr) : List Byte :=
  match i.opcode with
  | some op => op :: i.operandBytes
  | none => []

/-! ### Words numbered as the opcode table numbers them -/

/-- The three bytes of an instruction whose bits are `w` in the table's numbering (bit 0 is the least significant bit
of the first byte); every bit from `nbits` up is 0. -/
def tableWordBytes (nbits w : Nat) : List Byte :=
  let v := w % 2 ^ nbits
  [BitVec.ofNat 8 v, BitVec.ofNat 8 (v / 0x100), BitVec.ofNat 8 (v / 0x10000)]

/-- The instruction the decoder reads from such a word. -/
def decodeTableWord (nbits w : Nat) : Option Instr :=
  match decode (tableWordBytes nbits w) with
  | .ok r => some r.1
  | .error _ => none

end Sys2Proof
end

