-- ==== Sys2Proof/Config.lean ====
section
/-! DEFINITION. What the platform fixes (vectors, reset figures) and the one free value of the model: the byte that a
bus read returns where no plain storage answers. -/

namespace Sys2Proof

/-- One event of the core's bus port (00_scope.md R12), as the recorded history of accesses holds it (20_memory.md
R50). `deviceStep` is the environment's: between two steps the orchestrator stepped the PPU and APU or an input
changed, so that later answers may differ (60_exceptions.md R230). -/
inductive BusEvent where
  /-- The core read `v` at `a`. -/
  | read (a : Addr) (v : Byte)
  /-- The core wrote `v` at `a`. -/
  | write (a : Addr) (v : Byte)
  /-- The devices behind the bus advanced; `tag` stands for whatever reached them from outside. -/
  | deviceStep (tag : Nat)
  deriving DecidableEq, Repr

namespace Config

/-- FREE VALUE. The byte the bus supplies at an address that no plain storage answers, as a function of the accesses
recorded so far and the address, as the bus decodes both (R56): "a model takes it from an oracle over the recorded
history of accesses" (R50; log 3). It has no body, so nothing can be proved about a particular answer. -/
opaque busAnswer : List BusEvent → Addr → Byte

/-- What a byte of storage that nothing has written or supplied reads as. DESIGN CHOICE, unsafe (log 1). -/
def unlistedByte : Byte := 0x00

/-- The NMI vector (R57, R211). -/
def nmiVector : Addr := 0xFFFA
/-- The reset vector (R57, R211). -/
def resetVector : Addr := 0xFFFC
/-- The vector that IRQ and BRK share (R57, R211). -/
def irqVector : Addr := 0xFFFE

/-- SP after reset (R42, R240). -/
def resetSp : Byte := 0xFD
/-- P after reset: I and U set (R42, R240). -/
def resetP : Byte := 0x24

end Config

end Sys2Proof
end

