-- ==== Sys2Proof/Machine/State.lean ====
section
/-! DEFINITION. The state of the machine: the core's tuple (10_state.md R20 to R39) and the bus it is attached to
(20_memory.md R50 to R58), as plain data; the state after reset; why a step may stop. -/

namespace Sys2Proof.Machine

/-- Storage behind the bus: the bytes that differ from `Config.unlistedByte`, by cell, cells strictly rising. -/
abbrev Memory := List Host.Cell

/-- Which address map answers the core: "the core's rules hold for any answering bus" (R56; log 2). -/
inductive Platform where
  /-- The console's map (R56): RAM mirrored every 2 KiB below 0x2000, PRG ROM from 0x8000, the rest devices. -/
  | nes
  /-- A flat 64 KiB of RAM with no device, the environment of 95_test_vectors.md part 3. -/
  | flat
  /-- A bus of which nothing is known: every read is an oracle's answer (R50). -/
  | anyBus
  deriving DecidableEq, Repr

/-- What stands behind one address. -/
inductive Region where
  /-- Read-write storage, at this cell. -/
  | ram (cell : Nat)
  /-- Program ROM, at this cell; a write re-banks the mapper and changes no byte (R54). -/
  | prg (cell : Nat)
  /-- A device, or a window whose contents the spec does not give (log 3); a write there re-banks nothing (log 19). -/
  | device
  deriving DecidableEq, Repr

/-- The bus and what the core has done on it. The MODEL's own fields: the spec's core has no memory (R3, R39). -/
structure Bus where
  /-- The bytes plain storage holds. -/
  mem : Memory
  /-- The address map. -/
  platform : Platform
  /-- A write has reached the mapper since the program bytes were supplied, so what the PRG window answers is no
  longer what `mem` holds (R54, R58, R62; log 4). -/
  prgRebanked : Bool
  /-- The recorded accesses, newest first (R50, R55; log 5). -/
  history : List BusEvent
  deriving DecidableEq, Repr

/-- The state between two steps: `(PC, SP, A, X, Y, P, cycles, nmi_pending, irq_pending)` (R39) and the bus. -/
structure State where
  /-- Program counter: the next opcode byte to fetch; during an instruction, the address of its opcode byte (R25, R14). -/
  pc : Addr
  /-- Stack pointer: the next free byte of the page 0x0100–0x01FF (R24). -/
  sp : Byte
  /-- Accumulator (R21). -/
  a : Byte
  /-- Index register X (R22). -/
  x : Byte
  /-- Index register Y (R23). -/
  y : Byte
  /-- Status register, N V U B D I Z C from bit 7 to bit 0 (R26). -/
  p : Byte
  /-- The cycle counter, unbounded (R36). -/
  cycles : Nat
  /-- An NMI is latched (R37). -/
  nmiPending : Bool
  /-- An IRQ is requested (R38). -/
  irqPending : Bool
  /-- The bus. -/
  bus : Bus
  deriving DecidableEq, Repr

/-- Why a step stops with a fault: never. "The core raises no synchronous exception" (60_exceptions.md R210) and no
access can be refused (R58), so there is no constructor (log 13). -/
inductive Fault where
  deriving DecidableEq, Repr

/-- Why a step is refused. -/
inductive Refusal where
  /-- An instruction has no meaning yet. No arm of `exec` answers it: every instruction has its meaning. Safe. -/
  | notModelled (mnemonic : String)
  deriving DecidableEq, Repr

/-- What a step, an instruction or an operation that ends a step answers. -/
abbrev Result := Host.Outcome State Fault Refusal

/-- The registers an instruction names by letter (R20); the status register and PC have accessors of their own. -/
inductive Reg where
  | a
  | x
  | y
  | sp
  deriving DecidableEq, Repr

/-- The bits of P by name (R26). -/
inductive Flag where
  | carry
  | zero
  | interruptDisable
  | decimal
  | brk
  | unused
  | overflow
  | negative
  deriving DecidableEq, Repr

/-- Where a memory operand lies: its effective address, whether the index addition changed the page, and the state
after the pointer bytes were read (30_encoding.md R72 to R82). -/
structure Located where
  ea : Addr
  pageCrossed : Bool
  st : State
  deriving DecidableEq, Repr

/-- A byte that was read as an operand, and the state after it was read. -/
structure Operand where
  value : Byte
  pageCrossed : Bool
  st : State
  deriving DecidableEq, Repr

/-- The bus at construction: the console's map, nothing stored, nothing accessed (logs 1, 2, 4, 5). -/
def Bus.constructed : Bus :=
  { mem := [], platform := .nes, prgRebanked := false, history := [] }

/-- The state when the console is constructed, before the `reset()` it performs (70_reset_and_hazards.md R241). -/
def State.constructed : State :=
  { pc := 0x0000, sp := Config.resetSp, a := 0x00, x := 0x00, y := 0x00, p := Config.resetP, cycles := 0
    nmiPending := false, irqPending := false, bus := Bus.constructed }

/-- The machine right after reset: the table of 10_state.md R42 from the constructed state. PC is the word at 0xFFFC,
0x0000 because storage lists nothing (log 6); the two vector reads of R240 are on record; `cycles` is 0 + 7 (R241). -/
def State.reset : State :=
  { pc := 0x0000, sp := Config.resetSp, a := 0x00, x := 0x00, y := 0x00, p := Config.resetP, cycles := 7
    nmiPending := false, irqPending := false
    bus := { Bus.constructed with history := [.read 0xFFFD Config.unlistedByte, .read 0xFFFC Config.unlistedByte] } }

end Sys2Proof.Machine
end

