-- ==== Sys2Proof/Machine/Flags.lean ====
section
/-! DEFINITION. The status register: its bits, the flag computations of 42_arith_logic.md and 43_shift_rotate.md, and
the status bytes that are pushed and pulled (10_state.md R26 to R35). -/

namespace Sys2Proof.Machine

/-- The position of a flag in P (R26). -/
def Flag.position : Flag → Nat
  | .carry => 0
  | .zero => 1
  | .interruptDisable => 2
  | .decimal => 3
  | .brk => 4
  | .unused => 5
  | .overflow => 6
  | .negative => 7

/-- A byte with one bit replaced. -/
def setBit (v : Byte) (n : Nat) (b : Bool) : Byte :=
  if b then v ||| (1#8 <<< n) else v &&& ~~~(1#8 <<< n)

/-- Read a flag (R11). -/
def State.flag (f : Flag) (s : State) : Bool := s.p.getLsbD f.position

/-- Write a flag, leaving the other bits of P (R11). -/
def State.setFlag (f : Flag) (b : Bool) (s : State) : State := { s with p := setBit s.p f.position b }

/-- P as the host's state port reads it: bit 5 reads as 1 at all times (R33, R40). -/
def State.readP (s : State) : Byte := s.p ||| 0x20

/-- Write the whole of P: bit 5 is stored as 1 whatever value is offered (R33; log 8). -/
def State.writeP (v : Byte) (s : State) : State := { s with p := v ||| 0x20 }

/-- `setNZ(value)`: Z when the value is zero, N its bit 7 (R27). -/
def setNZ (v : Byte) (s : State) : State :=
  (s.setFlag .zero (v == 0)).setFlag .negative (v.getLsbD 7)

/-- `PushImage(b)`: `(P & 0xCF) | 0x20 | (b << 4)` (R34). -/
def pushImage (p : Byte) (b : Bool) : Byte :=
  (p &&& 0xCF) ||| 0x20 ||| (if b then 0x10 else 0x00)

/-- What a pulled status byte leaves in P: `(v & 0xCF) | (P & 0x10) | 0x20` (R35). -/
def pullImage (v p : Byte) : Byte := (v &&& 0xCF) ||| (p &&& 0x10) ||| 0x20

/-! ### Addition, on exact integers (R130, R131) -/

/-- `A + M + C` as a 9-bit value. -/
def addSum (a m : Byte) (c : Bool) : Nat := a.toNat + m.toNat + c.toNat

/-- The sum reduced to 8 bits. -/
def addResult (a m : Byte) (c : Bool) : Byte := BitVec.ofNat 8 (addSum a m c)

/-- The unsigned carry out of bit 7. -/
def addCarry (a m : Byte) (c : Bool) : Bool := decide (addSum a m c > 0xFF)

/-- `((A ^ result) & (M ^ result) & 0x80) != 0`: the addends have one sign and the result the other. -/
def addOverflow (a m : Byte) (c : Bool) : Bool :=
  ((a ^^^ addResult a m c) &&& (m ^^^ addResult a m c) &&& 0x80) != 0

/-- Add a byte and the carry into A, in binary whatever D holds (R130, R146). -/
def addToA (m : Byte) (s : State) : State :=
  let c := s.flag .carry
  let r := addResult s.a m c
  setNZ r (((({ s with a := r }).setFlag .carry (addCarry s.a m c)).setFlag .overflow (addOverflow s.a m c)))

/-- C, Z and N of a comparison: C when the register is at least the operand, Z and N of the difference (R135). -/
def compareFlags (r m : Byte) (s : State) : State :=
  setNZ (r - m) (s.setFlag .carry (decide (m.toNat ≤ r.toNat)))

/-- Z from `A & M`, N and V from bits 7 and 6 of M (R136). -/
def bitFlags (m : Byte) (s : State) : State :=
  ((s.setFlag .zero (s.a &&& m == 0)).setFlag .negative (m.getLsbD 7)).setFlag .overflow (m.getLsbD 6)

/-! ### Shifts: the result and the bit shifted out, from the byte and the old C (R160 to R163) -/

/-- A shift's result and its new C. -/
abbrev Shifted := Byte × Bool

/-- ASL (R160). -/
def shiftAsl (v : Byte) (_c : Bool) : Shifted := (v <<< 1, v.getLsbD 7)

/-- LSR (R161). -/
def shiftLsr (v : Byte) (_c : Bool) : Shifted := (v >>> 1, v.getLsbD 0)

/-- ROL: the old C enters bit 0 (R162). -/
def shiftRol (v : Byte) (c : Bool) : Shifted := ((v <<< 1) ||| (if c then 0x01 else 0x00), v.getLsbD 7)

/-- ROR: the old C enters bit 7 (R163). -/
def shiftRor (v : Byte) (c : Bool) : Shifted := ((v >>> 1) ||| (if c then 0x80 else 0x00), v.getLsbD 0)

end Sys2Proof.Machine
end

