-- ==== Sys2Proof/Machine/Ops.lean ====
section
/-! DEFINITION. The named operations over memory and registers: storage, the bus port (20_memory.md R50 to R56), the
stack (41_stack.md R120, R121), taking an interrupt or BRK and returning from it (60_exceptions.md R216, R181, R182),
the poll, and fetching an instruction. -/

namespace Sys2Proof.Machine

/-! ### Storage -/

/-- The byte a cell holds. -/
def Memory.read : Memory → Nat → Byte
  | [], _ => Config.unlistedByte
  | c :: rest, k => if c.1 = k then c.2 else Memory.read rest k

/-- The memory without any entry for a cell. -/
def Memory.erase (m : Memory) (k : Nat) : Memory := m.filter (fun c => decide (c.1 ≠ k))

/-- The memory with an entry put before the first greater cell. -/
def Memory.insert : Memory → Nat → Byte → Memory
  | [], k, v => [(k, v)]
  | c :: rest, k, v => if c.1 < k then c :: Memory.insert rest k v else (k, v) :: c :: rest

/-- Store a byte. Storing what an unlisted cell reads as removes the entry, so equal memories are equal lists. -/
def Memory.write (m : Memory) (k : Nat) (v : Byte) : Memory :=
  if v = Config.unlistedByte then Memory.erase m k else Memory.insert (Memory.erase m k) k v

/-- Every cell is from `lo` up and below 65536, cells strictly rise, no entry holds the unlisted byte. -/
def Memory.wfFrom : Nat → Memory → Bool
  | _, [] => true
  | lo, c :: rest => decide (lo ≤ c.1) && decide (c.1 < 0x10000) && c.2 != Config.unlistedByte && Memory.wfFrom (c.1 + 1) rest

/-- The canonical form. -/
def Memory.wf (m : Memory) : Bool := Memory.wfFrom 0 m

/-- Store consecutive bytes from a cell on. -/
def Memory.writeRun : Memory → Nat → List Byte → Memory
  | m, _, [] => m
  | m, k, v :: rest => Memory.writeRun (Memory.write m k v) (k + 1) rest

/-! ### The bus port -/

/-- What stands behind an address (R56; the window 0x4020–0x7FFF of the cartridge is given no contents, log 3). -/
def Platform.region : Platform → Addr → Region
  | .nes, a =>
    if a.toNat < 0x2000 then .ram (a.toNat % 0x0800)
    else if a.toNat < 0x8000 then .device
    else .prg a.toNat
  | .flat, a => .ram a.toNat
  | .anyBus, _ => .device

/-- The address that the bus decodes an address to: on the console's map the PPU register window 0x2000–0x3FFF is
mirrored every 8 bytes, so that 0x2000–0x2007 stand for all of it (R56); RAM's mirroring is in `region`. -/
def Platform.decodedAddr : Platform → Addr → Addr
  | .nes, a => if 0x2000 ≤ a.toNat ∧ a.toNat < 0x4000 then BitVec.ofNat 16 (0x2000 + a.toNat % 8) else a
  | .flat, a => a
  | .anyBus, a => a

/-- An event as the devices behind the bus see it: at the decoded address (R56; log 3). -/
def Platform.decodedEvent (pl : Platform) : BusEvent → BusEvent
  | .read a v => .read (pl.decodedAddr a) v
  | .write a v => .write (pl.decodedAddr a) v
  | .deviceStep tag => .deviceStep tag

/-- The record as the devices behind the bus see it. `history` itself keeps the addresses the core presented. -/
def Bus.decodedHistory (b : Bus) : List BusEvent := b.history.map b.platform.decodedEvent

/-- The byte that plain storage holds behind an address, if storage is what answers there. -/
def Bus.peek (b : Bus) (a : Addr) : Option Byte :=
  match b.platform.region a with
  | .ram k => some (b.mem.read k)
  | .prg k => if b.prgRebanked then none else some (b.mem.read k)
  | .device => none

/-- The byte a read at this address gets now: storage's, or the oracle's over the recorded history (R50),
both the history and the address as the bus decodes them (R56). -/
def Bus.answer (b : Bus) (a : Addr) : Byte :=
  match b.peek a with
  | some v => v
  | none => Config.busAnswer b.decodedHistory (b.platform.decodedAddr a)

/-- The bus after a read, which is on record (R50, R54). -/
def Bus.afterRead (b : Bus) (a : Addr) : Bus := { b with history := .read a (b.answer a) :: b.history }

/-- The bus after a write: RAM stores the byte, the mapper re-banks, a device takes it (R54); it is on record. DESIGN
CHOICE, unsafe (log 19): only a write to 0x8000–0xFFFF re-banks, the range R54 names; a write to the rest of cartridge
space, 0x4020–0x7FFF, changes nothing that the program window answers, though R62 and R226 leave open that it might. -/
def Bus.write (b : Bus) (a : Addr) (v : Byte) : Bus :=
  let h := BusEvent.write a v :: b.history
  match b.platform.region a with
  | .ram k => { b with mem := b.mem.write k v, history := h }
  | .prg _ => { b with prgRebanked := true, history := h }
  | .device => { b with history := h }

/-- A write at `w` can change what storage answers at `a`: they name one RAM cell, or both lie in the PRG window (that
no write below 0x8000 touches that window is log 19's choice). -/
def Platform.touches (pl : Platform) (w a : Addr) : Bool :=
  match pl.region w, pl.region a with
  | .ram k, .ram k' => k == k'
  | .prg _, .prg _ => true
  | _, _ => false

/-- `MemRead(addr, 1)` (R12). -/
def memRead (a : Addr) (s : State) : Byte × State := (s.bus.answer a, { s with bus := s.bus.afterRead a })

/-- `MemWrite(addr, 1, v)` (R12). -/
def memWrite (a : Addr) (v : Byte) (s : State) : State := { s with bus := s.bus.write a v }

/-- `Read16(addr)`: low byte, then the byte at the next address modulo 65536 (R12, R52). -/
def read16 (a : Addr) (s : State) : Addr × State :=
  let lo := memRead a s
  let hi := memRead (a + 1) lo.2
  (joinBytes hi.1 lo.1, hi.2)

/-! ### Registers -/

/-- Read a register (R11). -/
def State.getReg (r : Reg) (s : State) : Byte :=
  match r with
  | .a => s.a
  | .x => s.x
  | .y => s.y
  | .sp => s.sp

/-- Write a register (R11). -/
def State.setReg (r : Reg) (v : Byte) (s : State) : State :=
  match r with
  | .a => { s with a := v }
  | .x => { s with x := v }
  | .y => { s with y := v }
  | .sp => { s with sp := v }

/-- The end of an instruction that does not assign PC: `PC <- (PC + len) & 0xFFFF`, its cost added once (R14, R250). -/
def finish (len cost : Nat) (s : State) : State :=
  { s with pc := s.pc + BitVec.ofNat 16 len, cycles := s.cycles + cost }

/-- The end of an instruction that assigns PC. -/
def finishAt (target : Addr) (cost : Nat) (s : State) : State := { s with pc := target, cycles := s.cycles + cost }

/-! ### The stack -/

/-- The stack byte SP names, `0x0100 | SP` (R24). -/
def stackAddr (sp : Byte) : Addr := joinBytes 0x01 sp

/-- `Push(v)` (R120). -/
def push (v : Byte) (s : State) : State :=
  let w := memWrite (stackAddr s.sp) v s
  { w with sp := w.sp - 1 }

/-- `Push16(w)`: high byte first (R120). -/
def push16 (w : Addr) (s : State) : State := push (lowByte w) (push (highByte w) s)

/-- `Pull()` (R121). -/
def pull (s : State) : Byte × State := memRead (stackAddr (s.sp + 1)) { s with sp := s.sp + 1 }

/-- `Pull16()`: low byte first (R121). -/
def pull16 (s : State) : Addr × State :=
  let lo := pull s
  let hi := pull lo.2
  (joinBytes hi.1 lo.1, hi.2)

/-! ### Interrupts and BRK -/

/-- Taking an exception through a vector: push the return address high byte first, push the status byte with bit 4
`b`, set I, load PC from the vector, 7 cycles. It is `Enter(vec)` of R216 with the PC as return address and `b` false,
and BRK of R181 with PC + 2 and `b` true. -/
def takeException (vec ret : Addr) (b : Bool) (s : State) : State :=
  let s := push16 ret s
  let s := push (pushImage s.p b) s
  let s := s.setFlag .interruptDisable true
  let target := read16 vec s
  finishAt target.1 7 target.2

/-- Returning from one: pull the status byte, then the address (R182). The cost is RTI's. -/
def returnFromException (s : State) : State :=
  let v := pull s
  let s := { v.2 with p := pullImage v.1 v.2.p }
  let w := pull16 s
  { w.2 with pc := w.1 }

/-- The poll at the start of a step: NMI first, whatever I holds; an IRQ only when I is 0 (R216 to R219). -/
def pollInterrupts (s : State) : State :=
  if s.nmiPending then takeException Config.nmiVector s.pc false { s with nmiPending := false }
  else if s.irqPending && !s.flag .interruptDisable then
    takeException Config.irqVector s.pc false { s with irqPending := false }
  else s

/-! ### Fetch -/

/-- Fetch one instruction at PC: the opcode byte, then as many operand bytes as it has, in ascending addresses that
wrap (R55, R70, R245). PC still names the opcode byte (R14). -/
def fetch (s : State) : Instr × State :=
  let op := memRead s.pc s
  match opcodeLength op.1 with
  | 1 => (decodeOpcode op.1 0 0, op.2)
  | 2 =>
    let b1 := memRead (s.pc + 1) op.2
    (decodeOpcode op.1 b1.1 0, b1.2)
  | _ =>
    let b1 := memRead (s.pc + 1) op.2
    let b2 := memRead (s.pc + 2) b1.2
    (decodeOpcode op.1 b1.1 b2.1, b2.2)

end Sys2Proof.Machine
end

