-- ==== Sys2Proof/Machine/Operands.lean ====
section
/-! DEFINITION. The address modes (30_encoding.md R72 to R83), reading an operand, the cycle figures by mode
(70_reset_and_hazards.md R250, R251), and the shapes that instructions of one family share. -/

namespace Sys2Proof.Machine

/-- Two addresses lie in different pages (00_scope.md R15). -/
def differentPage (v w : Addr) : Bool := highByte v != highByte w

/-- The pointer in the zero page: both bytes are read there, the second wrapping from 0xFF to 0x00 (R81, R82). -/
def readZeroPagePointer (z : Byte) (s : State) : Addr × State :=
  let lo := memRead (z.setWidth 16) s
  let hi := memRead ((z + 1).setWidth 16) lo.2
  (joinBytes hi.1 lo.1, hi.2)

/-- An absolute base plus an index (R78, R79, R82). -/
def indexed (base : Addr) (index : Byte) (s : State) : Located :=
  let ea := base + index.setWidth 16
  { ea := ea, pageCrossed := differentPage base ea, st := s }

/-- The effective address of a memory mode, reading the pointer where the mode has one (R74 to R79, R81, R82). -/
def locate : MemMode → State → Located
  | .zp b, s => { ea := b.setWidth 16, pageCrossed := false, st := s }
  | .zpx b, s => { ea := (b + s.x).setWidth 16, pageCrossed := false, st := s }
  | .zpy b, s => { ea := (b + s.y).setWidth 16, pageCrossed := false, st := s }
  | .abs w, s => { ea := w, pageCrossed := false, st := s }
  | .absx w, s => indexed w s.x s
  | .absy w, s => indexed w s.y s
  | .indx b, s =>
    let ptr := readZeroPagePointer (b + s.x) s
    { ea := ptr.1, pageCrossed := false, st := ptr.2 }
  | .indy b, s =>
    let ptr := readZeroPagePointer b s
    indexed ptr.1 s.y ptr.2

/-- The byte a memory mode names, read once. -/
def readMem (m : MemMode) (s : State) : Operand :=
  let l := locate m s
  let r := memRead l.ea l.st
  { value := r.1, pageCrossed := l.pageCrossed, st := r.2 }

/-- The operand byte M. An immediate byte was read when the instruction was fetched; there is no further access (R73). -/
def readOperand : ReadMode → State → Operand
  | .imm v, s => { value := v, pageCrossed := false, st := s }
  | .mem m, s => readMem m s

/-! ### Cycle figures -/

/-- A reading instruction: its base figure, + 1 when the index addition crossed a page (R251). -/
def readCost (m : ReadMode) (crossed : Bool) : Nat :=
  match m with
  | .imm _ => 2
  | .mem (.zp _) => 3
  | .mem (.zpx _) | .mem (.zpy _) => 4
  | .mem (.abs _) => 4
  | .mem (.absx _) | .mem (.absy _) => 4 + crossed.toNat
  | .mem (.indx _) => 6
  | .mem (.indy _) => 5 + crossed.toNat

/-- A store: no page-crossing penalty (R103 to R105, R251). -/
def storeCost : MemMode → Nat
  | .zp _ => 3
  | .zpx _ | .zpy _ => 4
  | .abs _ => 4
  | .absx _ | .absy _ => 5
  | .indx _ | .indy _ => 6

/-- A read-modify-write of memory: no page-crossing penalty (R139, R160, R251). The last four modes belong to no
opcode (log 10). -/
def modifyCost : MemMode → Nat
  | .zp _ => 5
  | .zpx _ | .zpy _ => 6
  | .abs _ => 6
  | .absx _ | .absy _ => 7
  | .indx _ | .indy _ => 8

/-- A taken branch costs 3, or 4 into another page; one not taken 2 (R252). -/
def branchCost (taken : Bool) (next target : Addr) : Nat :=
  if taken then (if differentPage next target then 4 else 3) else 2

/-! ### Shapes -/

/-- An instruction that reads M and does `f` with it: every reading instruction of 40_ and 42_. -/
def withOperand (m : ReadMode) (f : Byte → State → State) (s : State) : Result :=
  let r := readOperand m s
  .next (finish m.length (readCost m r.pageCrossed) (f r.value r.st))

/-- Load M into a register and set N and Z (R100 to R102). -/
def loadReg (r : Reg) (m : ReadMode) (s : State) : Result :=
  withOperand m (fun v s => setNZ v (s.setReg r v)) s

/-- Store a register: one write, no read, no flag (R103 to R105). -/
def storeReg (r : Reg) (m : MemMode) (s : State) : Result :=
  let l := locate m s
  .next (finish (1 + m.operandLength) (storeCost m) (memWrite l.ea (l.st.getReg r) l.st))

/-- Copy a register to another and set N and Z (R106 to R109, R111). -/
def transferNZ (src dst : Reg) (s : State) : Result :=
  .next (finish 1 2 (setNZ (s.getReg src) (s.setReg dst (s.getReg src))))

/-- Replace a register by `v` and set N and Z (R141 to R144). -/
def updateReg (r : Reg) (v : Byte) (s : State) : Result :=
  .next (finish 1 2 (setNZ v (s.setReg r v)))

/-- Combine A with M and set N and Z (R132 to R134). -/
def logicA (f : Byte → Byte → Byte) (m : ReadMode) (s : State) : Result :=
  withOperand m (fun v s => setNZ (f s.a v) { s with a := f s.a v }) s

/-- Compare a register with M (R135, R137, R138). -/
def compareReg (r : Reg) (m : ReadMode) (s : State) : Result :=
  withOperand m (fun v s => compareFlags (s.getReg r) v s) s

/-- Read a memory byte once, write `f` of it once, set N and Z (R139, R140). -/
def modifyMem (f : Byte → Byte) (m : MemMode) (s : State) : Result :=
  let l := locate m s
  let v := memRead l.ea l.st
  .next (finish (1 + m.operandLength) (modifyCost m) (setNZ (f v.1) (memWrite l.ea (f v.1) v.2)))

/-- Shift A, or a memory byte read once and written once; C is the bit shifted out (R160 to R163). -/
def shift (f : Byte → Bool → Shifted) (m : ShiftMode) (s : State) : Result :=
  match m with
  | .acc =>
    let r := f s.a (s.flag .carry)
    .next (finish 1 2 (setNZ r.1 { (s.setFlag .carry r.2) with a := r.1 }))
  | .mem m =>
    let l := locate m s
    let v := memRead l.ea l.st
    let r := f v.1 (s.flag .carry)
    .next (finish (1 + m.operandLength) (modifyCost m) (setNZ r.1 (memWrite l.ea r.1 (v.2.setFlag .carry r.2))))

/-- Branch when `taken`: the target is relative to the next instruction (R83, R173 to R180). -/
def branchIf (taken : Bool) (off : Byte) (s : State) : Result :=
  let next := s.pc + 2
  let target := next + off.signExtend 16
  .next (finishAt (if taken then target else next) (branchCost taken next target) s)

/-- Write one flag; nothing else changes (R190 to R196). -/
def writeFlag (f : Flag) (b : Bool) (s : State) : Result := .next (finish 1 2 (s.setFlag f b))

end Sys2Proof.Machine
end

