-- ==== Sys2Proof/Machine/Arith.lean ====
section
/-! DEFINITION. Arithmetic, logic, compare, increment and decrement (42_arith_logic.md). -/

namespace Sys2Proof.Machine

/-- ADC (R130). -/
def execAdc (m : ReadMode) (s : State) : Result := withOperand m addToA s
/-- SBC: ADC of the complemented operand (R131). -/
def execSbc (m : ReadMode) (s : State) : Result := withOperand m (fun v s => addToA (v ^^^ 0xFF) s) s
/-- AND (R132). -/
def execAnd (m : ReadMode) (s : State) : Result := logicA (fun a v => a &&& v) m s
/-- ORA (R133). -/
def execOra (m : ReadMode) (s : State) : Result := logicA (fun a v => a ||| v) m s
/-- EOR (R134). -/
def execEor (m : ReadMode) (s : State) : Result := logicA (fun a v => a ^^^ v) m s
/-- CMP (R135). -/
def execCmp (m : ReadMode) (s : State) : Result := compareReg .a m s
/-- BIT (R136). -/
def execBit (m : MemMode) (s : State) : Result := withOperand (.mem m) bitFlags s
/-- CPX (R137). -/
def execCpx (m : ReadMode) (s : State) : Result := compareReg .x m s
/-- CPY (R138). -/
def execCpy (m : ReadMode) (s : State) : Result := compareReg .y m s
/-- INC (R139). -/
def execInc (m : MemMode) (s : State) : Result := modifyMem (fun v => v + 1) m s
/-- DEC (R140). -/
def execDec (m : MemMode) (s : State) : Result := modifyMem (fun v => v - 1) m s
/-- INX (R141). -/
def execInx (s : State) : Result := updateReg .x (s.x + 1) s
/-- INY (R142). -/
def execIny (s : State) : Result := updateReg .y (s.y + 1) s
/-- DEX (R143). -/
def execDex (s : State) : Result := updateReg .x (s.x - 1) s
/-- DEY (R144). -/
def execDey (s : State) : Result := updateReg .y (s.y - 1) s

end Sys2Proof.Machine
end

