-- ==== Sys2Proof/Machine/Control.lean ====
section
/-! DEFINITION. Jumps, subroutines, branches, BRK and RTI (44_control_transfer.md). -/

namespace Sys2Proof.Machine

/-- The target of JMP indirect: its high byte is read in the page of its low byte (R80). -/
def readJumpPointer (ptr : Addr) (s : State) : Addr × State :=
  let lo := memRead ptr s
  let hi := memRead (joinBytes (highByte ptr) (lowByte ptr + 1)) lo.2
  (joinBytes hi.1 lo.1, hi.2)

/-- JMP (R170). -/
def execJmp (m : JumpMode) (s : State) : Result :=
  match m with
  | .abs w => .next (finishAt w 3 s)
  | .ind w =>
    let t := readJumpPointer w s
    .next (finishAt t.1 5 t.2)
/-- JSR: it pushes the address of its own last byte (R171). -/
def execJsr (w : Addr) (s : State) : Result := .next (finishAt w 6 (push16 (s.pc + 2) s))
/-- RTS: the pulled address plus 1 (R172). -/
def execRts (s : State) : Result :=
  let w := pull16 s
  .next (finishAt (w.1 + 1) 6 w.2)

/-- BPL (R173). -/
def execBpl (off : Byte) (s : State) : Result := branchIf (!s.flag .negative) off s
/-- BMI (R174). -/
def execBmi (off : Byte) (s : State) : Result := branchIf (s.flag .negative) off s
/-- BVC (R175). -/
def execBvc (off : Byte) (s : State) : Result := branchIf (!s.flag .overflow) off s
/-- BVS (R176). -/
def execBvs (off : Byte) (s : State) : Result := branchIf (s.flag .overflow) off s
/-- BCC (R177). -/
def execBcc (off : Byte) (s : State) : Result := branchIf (!s.flag .carry) off s
/-- BCS (R178). -/
def execBcs (off : Byte) (s : State) : Result := branchIf (s.flag .carry) off s
/-- BNE (R179). -/
def execBne (off : Byte) (s : State) : Result := branchIf (!s.flag .zero) off s
/-- BEQ (R180). -/
def execBeq (off : Byte) (s : State) : Result := branchIf (s.flag .zero) off s

/-- BRK: the software interrupt. The byte after it is skipped, never read (R181). -/
def execBrk (s : State) : Result := .next (takeException Config.irqVector (s.pc + 2) true s)
/-- RTI (R182). -/
def execRti (s : State) : Result :=
  let t := returnFromException s
  .next (finishAt t.pc 6 t)

end Sys2Proof.Machine
end

