-- ==== Sys2Proof/Machine/FlagOps.lean ====
section
/-! DEFINITION. The flag instructions, NOP and the unofficial opcodes (45_flags_misc.md). -/

namespace Sys2Proof.Machine

/-- CLC (R190). -/
def execClc (s : State) : Result := writeFlag .carry false s
/-- SEC (R191). -/
def execSec (s : State) : Result := writeFlag .carry true s
/-- CLI (R192). -/
def execCli (s : State) : Result := writeFlag .interruptDisable false s
/-- SEI (R193). -/
def execSei (s : State) : Result := writeFlag .interruptDisable true s
/-- CLV (R194). -/
def execClv (s : State) : Result := writeFlag .overflow false s
/-- CLD (R195). -/
def execCld (s : State) : Result := writeFlag .decimal false s
/-- SED (R196). -/
def execSed (s : State) : Result := writeFlag .decimal true s
/-- NOP (R197). -/
def execNop (s : State) : Result := .next (finish 1 2 s)
/-- An unofficial opcode: a 2-cycle no-op of one byte, whichever of the 105 it is (R198). -/
def execUnofficial (_op : Byte) (s : State) : Result := .next (finish 1 2 s)

end Sys2Proof.Machine
end

