-- ==== Sys2Proof/Machine/LoadStore.lean ====
section
/-! DEFINITION. Loads, stores and register transfers (40_load_store_transfer.md). -/

namespace Sys2Proof.Machine

/-- LDA (R100). -/
def execLda (m : ReadMode) (s : State) : Result := loadReg .a m s
/-- LDX (R101). -/
def execLdx (m : ReadMode) (s : State) : Result := loadReg .x m s
/-- LDY (R102). -/
def execLdy (m : ReadMode) (s : State) : Result := loadReg .y m s
/-- STA (R103). -/
def execSta (m : MemMode) (s : State) : Result := storeReg .a m s
/-- STX (R104). -/
def execStx (m : MemMode) (s : State) : Result := storeReg .x m s
/-- STY (R105). -/
def execSty (m : MemMode) (s : State) : Result := storeReg .y m s
/-- TAX (R106). -/
def execTax (s : State) : Result := transferNZ .a .x s
/-- TAY (R107). -/
def execTay (s : State) : Result := transferNZ .a .y s
/-- TSX (R108). -/
def execTsx (s : State) : Result := transferNZ .sp .x s
/-- TXA (R109). -/
def execTxa (s : State) : Result := transferNZ .x .a s
/-- TXS: the only transfer that writes no flag (R110). -/
def execTxs (s : State) : Result := .next (finish 1 2 (s.setReg .sp s.x))
/-- TYA (R111). -/
def execTya (s : State) : Result := transferNZ .y .a s

end Sys2Proof.Machine
end

