-- ==== Sys2Proof/Machine/Shift.lean ====
section
/-! DEFINITION. Shifts and rotates (43_shift_rotate.md). -/

namespace Sys2Proof.Machine

/-- ASL (R160). -/
def execAsl (m : ShiftMode) (s : State) : Result := shift shiftAsl m s
/-- LSR (R161). -/
def execLsr (m : ShiftMode) (s : State) : Result := shift shiftLsr m s
/-- ROL (R162). -/
def execRol (m : ShiftMode) (s : State) : Result := shift shiftRol m s
/-- ROR (R163). -/
def execRor (m : ShiftMode) (s : State) : Result := shift shiftRor m s

end Sys2Proof.Machine
end

