-- ==== Sys2Proof/Machine/Stack.lean ====
section
/-! DEFINITION. The stack instructions (41_stack.md). -/

namespace Sys2Proof.Machine

/-- PHA: no flag is written (R123). -/
def execPha (s : State) : Result := .next (finish 1 3 (push s.a s))
/-- PHP: bits 4 and 5 of the pushed byte are 1, P is unchanged (R124). -/
def execPhp (s : State) : Result := .next (finish 1 3 (push (pushImage s.p true) s))
/-- PLA (R125). -/
def execPla (s : State) : Result :=
  let r := pull s
  .next (finish 1 4 (setNZ r.1 (r.2.setReg .a r.1)))
/-- PLP: bits 4 and 5 of the pulled byte are ignored (R126). -/
def execPlp (s : State) : Result :=
  let r := pull s
  .next (finish 1 4 { r.2 with p := pullImage r.1 r.2.p })

end Sys2Proof.Machine
end

