-- ==== Sys2Proof/Machine/Environment.lean ====
section
/-! DEFINITION. What the outside world may do to the core between two steps: reset (70_reset_and_hazards.md R240), the
interrupt inputs (60_exceptions.md R214, R215), the host's state port and save-state image (10_state.md R40, R41), the
devices advancing (R230), and loading a program. -/

namespace Sys2Proof.Machine

/-- `reset()`: the registers and flags of R240, PC from the reset vector, 7 cycles more; memory is not touched (R242). -/
def resetCore (s : State) : State :=
  let s := { s with
    a := 0x00, x := 0x00, y := 0x00, sp := Config.resetSp, p := Config.resetP
    nmiPending := false, irqPending := false }
  let target := read16 Config.resetVector s
  finishAt target.1 7 target.2

/-- The NMI latch input: a set, not a toggle (R214). -/
def latchNmi (s : State) : State := { s with nmiPending := true }

/-- The IRQ request input (R215). -/
def requestIrq (s : State) : State := { s with irqPending := true }

/-- A write through the state port; `cycles` has none (R40). -/
inductive PortWrite where
  | pc (v : Addr)
  | sp (v : Byte)
  | a (v : Byte)
  | x (v : Byte)
  | y (v : Byte)
  | p (v : Byte)
  | nmiPending (b : Bool)
  | irqPending (b : Bool)
  deriving DecidableEq, Repr

/-- The state port's write: P is stored with bit 5 forced to 1 and bit 4 as B (R40, R33). -/
def writePort (w : PortWrite) (s : State) : State :=
  match w with
  | .pc v => { s with pc := v }
  | .sp v => { s with sp := v }
  | .a v => { s with a := v }
  | .x v => { s with x := v }
  | .y v => { s with y := v }
  | .p v => s.writeP v
  | .nmiPending b => { s with nmiPending := b }
  | .irqPending b => { s with irqPending := b }

/-- The bytes of internal RAM that a save-state image holds. -/
def ramImageSize : Nat := 0x0800

/-- The save-state image: 4-byte PC, SP, A, X, Y, P, then the RAM image (R41). -/
def saveImage (s : State) : List Byte :=
  [lowByte s.pc, highByte s.pc, 0x00, 0x00, s.sp, s.a, s.x, s.y, s.readP] ++
    (List.range ramImageSize).map s.bus.mem.read

/-- Restore an image: PC, SP, A, X, Y, P and RAM are written; `cycles` and the pending flags stay (R41). An image that
is not 9 + 2048 bytes long is corrupt and writes nothing (93_implementation_defined.md row 15; log 14). -/
def restoreImage (img : List Byte) (s : State) : Option State :=
  match img with
  | pcl :: pch :: _ :: _ :: sp :: a :: x :: y :: p :: ram =>
    if ram.length = ramImageSize then
      let s := { s with
        pc := joinBytes pch pcl, sp := sp, a := a, x := x, y := y
        bus := { s.bus with mem := s.bus.mem.writeRun 0 ram } }
      some (s.writeP p)
    else none
  | _ => none

/-- One action of the environment between two steps (R230, R246). -/
inductive EnvAction where
  /-- The orchestrator latches an NMI (R214). -/
  | latchNmi
  /-- The platform requests an IRQ (R215). -/
  | requestIrq
  /-- The host writes the state port (R40). -/
  | port (w : PortWrite)
  /-- Reset (R240). -/
  | reset
  /-- The PPU and APU are stepped, or an input changes: later bus answers may differ (R230). -/
  | stepDevices (tag : Nat)
  /-- The host restores a save-state image (R41). -/
  | restore (img : List Byte)
  /-- Nothing: the orchestrator is paused (R229). -/
  | paused
  deriving DecidableEq, Repr

/-- What an environment action does to the state. -/
def environment (e : EnvAction) (s : State) : State :=
  match e with
  | .latchNmi => latchNmi s
  | .requestIrq => requestIrq s
  | .port w => writePort w s
  | .reset => resetCore s
  | .stepDevices tag => { s with bus := { s.bus with history := .deviceStep tag :: s.bus.history } }
  | .restore img => (restoreImage img s).getD s
  | .paused => s

/-! ### Loading a program from outside (log 12) -/

/-- Put a byte in the storage behind an address, with no bus access; nothing where there is no storage. -/
def Bus.load (b : Bus) (a : Addr) (v : Byte) : Bus :=
  match b.platform.region a with
  | .ram k | .prg k => { b with mem := b.mem.write k v }
  | .device => b

/-- Load consecutive bytes from an address on. -/
def Bus.loadRun : Bus → Addr → List Byte → Bus
  | b, _, [] => b
  | b, a, v :: rest => Bus.loadRun (b.load a v) (a + 1) rest

/-- Storage answers at each of the `n` addresses from `a` on. -/
def Bus.storedRun (b : Bus) : Addr → Nat → Bool
  | _, 0 => true
  | a, n + 1 => (b.peek a).isSome && Bus.storedRun b (a + 1) n

/-- Place instruction bytes where the next step fetches: at PC, with no interrupt pending (an entry would fetch at its
vector's target). Where PC's addresses are not all plain storage, the flat bus replaces the map, since no byte can be
placed in a device. -/
def placeInstruction (bytes : List Byte) (s : State) : State :=
  let b := if s.bus.storedRun s.pc bytes.length then s.bus else { s.bus with platform := .flat }
  { s with nmiPending := false, irqPending := false, bus := b.loadRun s.pc bytes }

end Sys2Proof.Machine
end

