-- ==== Sys2Proof/Machine/Step.lean ====
section
/-! DEFINITION. One step of the core (70_reset_and_hazards.md R245), and placing the instruction the next step runs. -/

namespace Sys2Proof.Machine

/-- `step()`: poll interrupts, perhaps entering one, then fetch and execute one instruction (R245; D7). -/
def step (s : State) : Host.Outcome State Fault Refusal :=
  let f := fetch (pollInterrupts s)
  exec f.1 f.2

/-- The state whose next step fetches the instruction with the bits `w`, as the opcode table numbers them (log 12). -/
def State.withFetchWord (s : State) (nbits w : Nat) : State := placeInstruction (tableWordBytes nbits w) s

end Sys2Proof.Machine
end

