-- ==== Sys2Proof/Safety.lean ====
section
/-! DEFINITION. The terms that claims are stated in: the invariant of a state, runs of steps and environment actions,
what two states share, which instructions touch which register, flag and memory, and the shapes of the "Encoding" and
"Pseudocode" lines of 40_ to 45_. P is written here by the manual's masks, not by the model's flag operations. -/

namespace Sys2Proof.Machine

/-! ### Invariant and runs -/

/-- The invariant: storage is in its canonical form, and bit 5 of P is 1 (10_state.md R33). -/
def State.Inv (s : State) : Prop := s.bus.mem.wf = true ∧ s.flag .unused = true

/-- One thing that happens to the core (60_exceptions.md R230). -/
inductive Event where
  /-- The host calls `step()`. -/
  | step
  /-- The environment acts between two steps. -/
  | env (e : EnvAction)
  deriving DecidableEq, Repr

/-- A run: events in order, stopping at the first fault or refusal. -/
def runEvents : List Event → State → Result
  | [], s => .next s
  | .step :: rest, s =>
    match step s with
    | .next t => runEvents rest t
    | .fault r => .fault r
    | .refused r => .refused r
  | .env e :: rest, s => runEvents rest (environment e s)

/-! ### What two states share -/

/-- Storage answers at every address in `t` as it does in `s`, and the map is the same. -/
def SameStorage (s t : State) : Prop :=
  t.bus.platform = s.bus.platform ∧ ∀ a, t.bus.peek a = s.bus.peek a

/-- The same, but for the addresses that a write at one of `ws` can change, by `Platform.touches`: that a write to a
device or to 0x4020–0x7FFF changes no byte of storage is the model's choice (logs 3, 19). -/
def SameStorageBut (ws : List Addr) (s t : State) : Prop :=
  t.bus.platform = s.bus.platform ∧
    ∀ a, (∀ w ∈ ws, s.bus.platform.touches w a = false) → t.bus.peek a = s.bus.peek a

/-- The accesses recorded since `s` are all reads. -/
def OnlyReads (s t : State) : Prop :=
  ∃ new : List BusEvent, t.bus.history = new ++ s.bus.history ∧ ∀ e ∈ new, ∃ a v, e = .read a v

/-- The bus answers these bytes, read one after another from an address on. -/
def Bus.answersRun : Bus → Addr → List Byte → Prop
  | _, _, [] => True
  | b, a, v :: rest => b.answer a = v ∧ Bus.answersRun (b.afterRead a) (a + 1) rest

/-- The bus after `n` reads, one after another from an address on. -/
def Bus.afterReads : Bus → Addr → Nat → Bus
  | b, _, 0 => b
  | b, a, n + 1 => Bus.afterReads (b.afterRead a) (a + 1) n

end Sys2Proof.Machine

namespace Sys2Proof

/-! ### Which instruction uses what (10_state.md R21 to R32) -/

/-- The mode indexes by X (R22). -/
def MemMode.usesX : MemMode → Bool
  | .zpx _ | .absx _ | .indx _ => true
  | .zp _ | .zpy _ | .abs _ | .absy _ | .indy _ => false

/-- The mode indexes by Y (R23). -/
def MemMode.usesY : MemMode → Bool
  | .zpy _ | .absy _ | .indy _ => true
  | .zp _ | .zpx _ | .abs _ | .absx _ | .indx _ => false

/-- The memory mode of an instruction that has one. -/
def Instr.memMode : Instr → Option MemMode
  | .lda (.mem m) | .ldx (.mem m) | .ldy (.mem m) | .adc (.mem m) | .sbc (.mem m) | .and (.mem m) | .ora (.mem m)
  | .eor (.mem m) | .cmp (.mem m) | .cpx (.mem m) | .cpy (.mem m) => some m
  | .sta m | .stx m | .sty m | .bit m | .inc m | .dec m => some m
  | .asl (.mem m) | .lsr (.mem m) | .rol (.mem m) | .ror (.mem m) => some m
  | _ => none

/-- An address mode of the instruction indexes by X. -/
def Instr.indexesByX (i : Instr) : Bool := (i.memMode.map MemMode.usesX).getD false

/-- An address mode of the instruction indexes by Y. -/
def Instr.indexesByY (i : Instr) : Bool := (i.memMode.map MemMode.usesY).getD false

/-- The writers of A (R21). -/
def Instr.writesA : Instr → Bool
  | .lda _ | .pla | .txa | .tya | .adc _ | .sbc _ | .and _ | .ora _ | .eor _ => true
  | .asl .acc | .lsr .acc | .rol .acc | .ror .acc => true
  | _ => false

/-- The readers of A (R21). -/
def Instr.readsA : Instr → Bool
  | .sta _ | .pha | .tax | .tay | .adc _ | .sbc _ | .and _ | .ora _ | .eor _ | .cmp _ | .bit _ => true
  | .asl .acc | .lsr .acc | .rol .acc | .ror .acc => true
  | _ => false

/-- The writers of X (R22). -/
def Instr.writesX : Instr → Bool
  | .ldx _ | .tax | .tsx | .inx | .dex => true
  | _ => false

/-- The readers of X, the address modes among them (R22). -/
def Instr.readsX (i : Instr) : Bool :=
  match i with
  | .stx _ | .txa | .txs | .cpx _ | .inx | .dex => true
  | _ => i.indexesByX

/-- The writers of Y (R23). -/
def Instr.writesY : Instr → Bool
  | .ldy _ | .tay | .iny | .dey => true
  | _ => false

/-- The readers of Y, the address modes among them (R23). -/
def Instr.readsY (i : Instr) : Bool :=
  match i with
  | .sty _ | .tya | .cpy _ | .iny | .dey => true
  | _ => i.indexesByY

/-- The writers of SP (R24). -/
def Instr.writesSp : Instr → Bool
  | .txs | .pha | .php | .pla | .plp | .jsr _ | .rts | .rti | .brk => true
  | _ => false

/-- The writers of Z and N (R27). -/
def Instr.writesNZ : Instr → Bool
  | .lda _ | .ldx _ | .ldy _ | .pla | .tax | .tay | .tsx | .txa | .tya => true
  | .adc _ | .sbc _ | .and _ | .ora _ | .eor _ | .inc _ | .dec _ | .inx | .iny | .dex | .dey => true
  | .asl _ | .lsr _ | .rol _ | .ror _ | .cmp _ | .cpx _ | .cpy _ | .plp | .rti | .bit _ => true
  | _ => false

/-- The writers of C (R28). -/
def Instr.writesC : Instr → Bool
  | .adc _ | .sbc _ | .cmp _ | .cpx _ | .cpy _ | .asl _ | .lsr _ | .rol _ | .ror _ | .clc | .sec | .plp | .rti => true
  | _ => false

/-- The writers of V (R29). -/
def Instr.writesV : Instr → Bool
  | .adc _ | .sbc _ | .bit _ | .clv | .plp | .rti => true
  | _ => false

/-- The writers of I (R30). -/
def Instr.writesI : Instr → Bool
  | .sei | .cli | .brk | .plp | .rti => true
  | _ => false

/-- The writers of D (R31). -/
def Instr.writesD : Instr → Bool
  | .sed | .cld | .plp | .rti => true
  | _ => false

/-- The instructions to which D is more than a bit kept: they write it, push it or pull it (R31). -/
def Instr.usesD : Instr → Bool
  | .sed | .cld | .plp | .rti | .php | .brk => true
  | _ => false

/-- The instructions that write memory: stores, read-modify-write on memory, pushes (R55). -/
def Instr.writesMemory : Instr → Bool
  | .sta _ | .stx _ | .sty _ | .inc _ | .dec _ => true
  | .asl (.mem _) | .lsr (.mem _) | .rol (.mem _) | .ror (.mem _) => true
  | .pha | .php | .jsr _ | .brk => true
  | _ => false

end Sys2Proof

namespace Sys2Proof.Machine

/-! ### The manual's values -/

/-- P with Z and N from a result (R27). -/
def withNZ (p v : Byte) : Byte := (p &&& 0x7D) ||| (v &&& 0x80) ||| (if v = 0 then 0x02 else 0x00)

/-- P with C replaced. -/
def withC (p : Byte) (c : Bool) : Byte := (p &&& 0xFE) ||| (if c then 0x01 else 0x00)

/-- P with V replaced. -/
def withV (p : Byte) (v : Bool) : Byte := (p &&& 0xBF) ||| (if v then 0x40 else 0x00)

/-- `0x0100 | SP` (R24). -/
def stackByte (sp : Byte) : Addr := 0x0100 ||| sp.setWidth 16

/-- P and A after `A + m + C` in 9 bits (R130). SBC gives the complemented operand as `m` (R131). -/
def sumIntoA (m : Byte) (t : State) : State :=
  let sum := t.a.toNat + m.toNat + (t.p &&& 0x01).toNat
  let r := BitVec.ofNat 8 sum
  { t with
    a := r
    p := withNZ (withV (withC t.p (decide (0xFF < sum))) (decide ((t.a ^^^ r) &&& (m ^^^ r) &&& 0x80 ≠ 0))) r }

/-- P after comparing a register with an operand (R135). -/
def comparedP (p r m : Byte) : Byte := withNZ (withC p (decide (m.toNat ≤ r.toNat))) (r - m)

/-- The state after an entry through `vec`: the return address pushed high byte first, then the status byte, I set,
PC from the vector low byte first, 7 cycles (R216, R181). -/
def entered (vec ret : Addr) (status : Byte) (s : State) : State :=
  let b1 := s.bus.write (stackByte s.sp) (BitVec.ofNat 8 (ret.toNat / 0x100))
  let b2 := b1.write (stackByte (s.sp - 1)) (BitVec.ofNat 8 ret.toNat)
  let b3 := b2.write (stackByte (s.sp - 2)) status
  let b4 := b3.afterRead vec
  { s with
    pc := b4.answer (vec + 1) ++ b3.answer vec
    sp := s.sp - 3
    p := s.p ||| 0x04
    cycles := s.cycles + 7
    bus := b4.afterRead (vec + 1) }

/-! ### The shape of an instruction's rule -/

/-- The instruction's bytes: what the encoder gives, and what the decoder reads them as. -/
def Encodes (i : Instr) (bytes : List Byte) : Prop :=
  encode i = bytes ∧ ∀ rest, decode (bytes ++ rest) = .ok (i, rest)

/-- An instruction of one opcode byte: its cost, and its effect besides PC and `cycles`. -/
def ImpliedForm (i : Instr) (op : Byte) (cost : Nat) (effect : State → State) : Prop :=
  Encodes i [op] ∧
    ∀ s, exec i s = .next { effect s with pc := s.pc + 1, cycles := s.cycles + cost }

/-- An immediate form: the operand byte is M, two cycles, no further access (R73). -/
def ImmediateForm (mk : ReadMode → Instr) (op v : Byte) (effect : Byte → State → State) : Prop :=
  Encodes (mk (.imm v)) [op, v] ∧
    ∀ s, exec (mk (.imm v)) s = .next { effect v s with pc := s.pc + 2, cycles := s.cycles + 2 }

/-- A form that reads M at `ea` once: its bytes, its base cost, the cycles a page crossing adds, and its effect besides
PC and `cycles`, on the state after M was read. -/
def ReadForm (i : Instr) (bytes : List Byte) (m : MemMode) (cost penalty : Nat) (effect : Byte → State → State) : Prop :=
  Encodes i bytes ∧
    ∀ s, exec i s = .next
      (let l := locate m s
       { effect (l.st.bus.answer l.ea) { l.st with bus := l.st.bus.afterRead l.ea } with
          pc := s.pc + BitVec.ofNat 16 bytes.length
          cycles := s.cycles + cost + (if l.pageCrossed then penalty else 0) })

/-- A form that writes `value` at `ea` once and reads nothing there. -/
def StoreForm (i : Instr) (bytes : List Byte) (m : MemMode) (cost : Nat) (value : State → Byte) : Prop :=
  Encodes i bytes ∧
    ∀ s, exec i s = .next
      (let l := locate m s
       { l.st with
          bus := l.st.bus.write l.ea (value s)
          pc := s.pc + BitVec.ofNat 16 bytes.length
          cycles := s.cycles + cost })

/-- A form that reads the byte at `ea` once and writes it once; `f` gives the new byte and the new P from the old. -/
def ModifyForm (i : Instr) (bytes : List Byte) (m : MemMode) (cost : Nat) (f : Byte → Byte → Byte × Byte) : Prop :=
  Encodes i bytes ∧
    ∀ s, exec i s = .next
      (let l := locate m s
       let r := f (l.st.bus.answer l.ea) s.p
       { l.st with
          bus := (l.st.bus.afterRead l.ea).write l.ea r.1
          p := r.2
          pc := s.pc + BitVec.ofNat 16 bytes.length
          cycles := s.cycles + cost })

/-- The eight forms of LDA ADC SBC AND ORA EOR CMP with their opcodes, figures and page-crossing penalties, in the
order of their rules: immediate, zero page, zero page,X, absolute, absolute,X, absolute,Y, (indirect,X), (indirect),Y. -/
def AluForms (mk : ReadMode → Instr) (im zp zx ab ax ay ix iy : Byte) (effect : Byte → State → State) : Prop :=
  ∀ v lo hi : Byte,
    ImmediateForm mk im v effect ∧
    ReadForm (mk (.mem (.zp lo))) [zp, lo] (.zp lo) 3 0 effect ∧
    ReadForm (mk (.mem (.zpx lo))) [zx, lo] (.zpx lo) 4 0 effect ∧
    ReadForm (mk (.mem (.abs (hi ++ lo)))) [ab, lo, hi] (.abs (hi ++ lo)) 4 0 effect ∧
    ReadForm (mk (.mem (.absx (hi ++ lo)))) [ax, lo, hi] (.absx (hi ++ lo)) 4 1 effect ∧
    ReadForm (mk (.mem (.absy (hi ++ lo)))) [ay, lo, hi] (.absy (hi ++ lo)) 4 1 effect ∧
    ReadForm (mk (.mem (.indx lo))) [ix, lo] (.indx lo) 6 0 effect ∧
    ReadForm (mk (.mem (.indy lo))) [iy, lo] (.indy lo) 5 1 effect

/-- The four memory forms of INC DEC ASL LSR ROL ROR: zero page, zero page,X, absolute, absolute,X. -/
def ModifyForms (mk : MemMode → Instr) (zp zx ab ax : Byte) (f : Byte → Byte → Byte × Byte) : Prop :=
  ∀ lo hi : Byte,
    ModifyForm (mk (.zp lo)) [zp, lo] (.zp lo) 5 f ∧
    ModifyForm (mk (.zpx lo)) [zx, lo] (.zpx lo) 6 f ∧
    ModifyForm (mk (.abs (hi ++ lo))) [ab, lo, hi] (.abs (hi ++ lo)) 6 f ∧
    ModifyForm (mk (.absx (hi ++ lo))) [ax, lo, hi] (.absx (hi ++ lo)) 7 f

/-- A shift or rotate: the accumulator form and the memory forms do the same to their byte. -/
def ShiftForms (mk : ShiftMode → Instr) (acc zp zx ab ax : Byte) (f : Byte → Byte → Byte × Byte) : Prop :=
  ImpliedForm (mk .acc) acc 2 (fun s => { s with a := (f s.a s.p).1, p := (f s.a s.p).2 }) ∧
    ModifyForms (fun m => mk (.mem m)) zp zx ab ax f

/-- A conditional branch (R83, R252): the target is `PC + 2 + offset`, the offset signed; 2 cycles not taken, 3 taken,
4 taken into another page than that of the next instruction. -/
def BranchForm (mk : Byte → Instr) (op : Byte) (cond : State → Bool) : Prop :=
  ∀ off,
    Encodes (mk off) [op, off] ∧
      ∀ s, exec (mk off) s = .next
        (let next := s.pc + 2
         let target := BitVec.ofInt 16 (s.pc.toNat + 2 + off.toInt)
         { s with
            pc := if cond s then target else next
            cycles := s.cycles + (if cond s then (if next &&& 0xFF00 = target &&& 0xFF00 then 3 else 4) else 2) })

end Sys2Proof.Machine
end

