-- ==== Sys2Proof/Certificates/Slice0/Obligations.lean ====
section
/-! DEFINITION. The statements for the provers. Each docstring names the rule of spec/ it formalises. The forms of an
instruction (ImpliedForm, ReadForm, AluForms and so on) and the masks over P are defined in Safety.lean. -/

open Sys2Proof Sys2Proof.Machine

/-! ### Encoding (30_encoding.md) -/

/-- R70, R85, R88: decoding the bytes of a well-formed instruction gives it back, with whatever follows. -/
def Obligations.DecodeOfEncodeIsIdentity : Prop :=
  ∀ (i : Instr) (rest : List Byte), i.wf = true → decode (encode i ++ rest) = .ok (i, rest)

/-- R70, R85, R88: whatever decodes is well formed, and its bytes are the ones that were read. -/
def Obligations.EncodeOfDecodeIsIdentity : Prop :=
  ∀ (bytes rest : List Byte) (i : Instr), decode bytes = .ok (i, rest) → i.wf = true ∧ bytes = encode i ++ rest

/-- R87, R88: every opcode byte decodes, and exactly the 105 bytes of R87, each in its own instruction, are unofficial. -/
def Obligations.DecodingIsTotal : Prop :=
  unofficialOpcodes.length = 105 ∧ unofficialOpcodes.Nodup ∧
  ∀ (op b1 b2 : Byte) (rest : List Byte), ∃ (i : Instr) (after : List Byte),
    decode (op :: b1 :: b2 :: rest) = .ok (i, after) ∧ i.wf = true ∧
    (op ∈ unofficialOpcodes ↔ i = .unofficial op) ∧ (op ∉ unofficialOpcodes → ∀ o, i ≠ .unofficial o)

/-- R85, one word or more of each family, written out from the map. -/
def Obligations.MapWordsDecode : Prop :=
  ∀ (b : Byte) (rest : List Byte),
    decode (0xA9 :: b :: rest) = .ok (.lda (.imm b), rest) ∧
    decode (0xB6 :: b :: rest) = .ok (.ldx (.mem (.zpy b)), rest) ∧
    decode (0x8D :: 0x34 :: 0x12 :: rest) = .ok (.sta (.abs 0x1234), rest) ∧
    decode (0x9A :: rest) = .ok (.txs, rest) ∧
    decode (0x68 :: rest) = .ok (.pla, rest) ∧
    decode (0x71 :: b :: rest) = .ok (.adc (.mem (.indy b)), rest) ∧
    decode (0x2C :: 0xCD :: 0xAB :: rest) = .ok (.bit (.abs 0xABCD), rest) ∧
    decode (0x6A :: rest) = .ok (.ror .acc, rest) ∧
    decode (0x6C :: 0xFF :: 0x02 :: rest) = .ok (.jmp (.ind 0x02FF), rest) ∧
    decode (0xD0 :: b :: rest) = .ok (.bne b, rest) ∧
    decode (0x78 :: rest) = .ok (.sei, rest) ∧
    decode (0x89 :: b :: rest) = .ok (.unofficial 0x89, b :: rest)

/-- R71: the opcode byte alone tells the length, and decoding takes that many bytes, 1 to 3. -/
def Obligations.LengthFollowsOpcodeByte : Prop :=
  (∀ op b1 b2 : Byte, (decodeOpcode op b1 b2).length = opcodeLength op) ∧
  ∀ (bytes rest : List Byte) (i : Instr), decode bytes = .ok (i, rest) →
    bytes.length = i.length + rest.length ∧ 1 ≤ i.length ∧ i.length ≤ 3 ∧
    ∃ op tail, bytes = op :: tail ∧ i.length = opcodeLength op

/-! ### The step (70_reset_and_hazards.md R245) -/

/-- R245: after the poll, when the bus answers the bytes of a well-formed instruction at PC and the addresses after it,
the step is that instruction's meaning on the state in which exactly those bytes have been read. -/
def Obligations.StepRunsDecodedInstruction : Prop :=
  ∀ (s : State) (i : Instr), i.wf = true →
    let u := pollInterrupts s
    u.bus.answersRun u.pc (encode i) →
    step s = exec i { u with bus := u.bus.afterReads u.pc (encode i).length }

/-- R244, R210, R88: the core never stops by itself: every step from every state answers a next state, and so does
every instruction. -/
def Obligations.CoreNeverStops : Prop :=
  (∀ s, ∃ t, step s = .next t) ∧ ∀ i s, ∃ t, exec i s = .next t

/-- R250 to R253: a step adds at least the 2 cycles of the cheapest instruction and at most the 7 of an entry and the
7 of the dearest. -/
def Obligations.StepCycleBounds : Prop :=
  ∀ s t, step s = .next t → s.cycles + 2 ≤ t.cycles ∧ t.cycles ≤ s.cycles + 14

/-! ### Interrupts (60_exceptions.md) -/

/-- R216 to R218: an NMI is entered whatever I holds; an IRQ only when no NMI is pending and I is 0; otherwise the
poll changes nothing. -/
def Obligations.PollEntersOneInterrupt : Prop :=
  ∀ s : State,
    (s.nmiPending = true →
      pollInterrupts s = { entered 0xFFFA s.pc ((s.p &&& 0xCF) ||| 0x20) s with nmiPending := false }) ∧
    (s.nmiPending = false → s.irqPending = true → s.p &&& 0x04 = 0 →
      pollInterrupts s = { entered 0xFFFE s.pc ((s.p &&& 0xCF) ||| 0x20) s with irqPending := false }) ∧
    (s.nmiPending = false → (s.irqPending = false ∨ s.p &&& 0x04 ≠ 0) → pollInterrupts s = s)

/-- R219: with both pending the NMI is taken, the IRQ stays pending, and the next poll does not take it because entry
set I. -/
def Obligations.NmiGoesBeforeIrq : Prop :=
  ∀ s : State, s.nmiPending = true → s.irqPending = true →
    (pollInterrupts s).irqPending = true ∧ (pollInterrupts s).nmiPending = false ∧
    pollInterrupts (pollInterrupts s) = pollInterrupts s ∧
    (pollInterrupts s).cycles = s.cycles + 7

/-- R181: BRK. -/
def Obligations.BrkEntersThroughIrqVector : Prop :=
  Encodes .brk [0x00] ∧
  ∀ s, exec .brk s = .next (entered 0xFFFE (s.pc + 2) ((s.p &&& 0xCF) ||| 0x30) s)

/-- R182: RTI pulls P, then PC; no 1 is added. -/
def Obligations.RtiPullsStatusThenPc : Prop :=
  Encodes .rti [0x40] ∧
  ∀ s, exec .rti s = .next
    (let b1 := s.bus.afterRead (stackByte (s.sp + 1))
     let b2 := b1.afterRead (stackByte (s.sp + 2))
     { s with
        p := (s.bus.answer (stackByte (s.sp + 1)) &&& 0xCF) ||| (s.p &&& 0x10) ||| 0x20
        pc := b2.answer (stackByte (s.sp + 3)) ++ b1.answer (stackByte (s.sp + 2))
        sp := s.sp + 3
        cycles := s.cycles + 6
        bus := b2.afterRead (stackByte (s.sp + 3)) })

/-- R221: RTI exactly undoes the three pushes of an entry, of BRK, NMI or IRQ, wherever the stack page is RAM. -/
def Obligations.RtiUndoesEntry : Prop :=
  ∀ (s : State) (vec ret : Addr) (b : Bool), s.bus.platform ≠ .anyBus →
    ∃ u, exec .rti (takeException vec ret b s) = .next u ∧
      u.pc = ret ∧ u.sp = s.sp ∧ u.p = s.p ||| 0x20 ∧ u.a = s.a ∧ u.x = s.x ∧ u.y = s.y ∧
      u.nmiPending = s.nmiPending ∧ u.irqPending = s.irqPending ∧ u.cycles = s.cycles + 13

/-- R220, R224: entry changes only PC, SP, I and the stack, besides `cycles` and the pending flag it clears. -/
def Obligations.EntryFrame : Prop :=
  ∀ s : State,
    let u := pollInterrupts s
    u.a = s.a ∧ u.x = s.x ∧ u.y = s.y ∧ (u.p = s.p ∨ u.p = s.p ||| 0x04) ∧ (u.sp = s.sp ∨ u.sp = s.sp - 3) ∧
    SameStorageBut [stackByte s.sp, stackByte (s.sp - 1), stackByte (s.sp - 2)] s u

/-! ### Reset and the host (70_reset_and_hazards.md, 10_state.md) -/

/-- R240: reset. -/
def Obligations.ResetLoadsVector : Prop :=
  ∀ s, resetCore s =
    (let b := s.bus.afterRead 0xFFFC
     { a := 0x00, x := 0x00, y := 0x00, sp := 0xFD, p := 0x24, nmiPending := false, irqPending := false
       pc := b.answer 0xFFFD ++ s.bus.answer 0xFFFC
       cycles := s.cycles + 7
       bus := b.afterRead 0xFFFD })

/-- R241, R42: the state after reset is what `reset()` leaves of the constructed state, whose `cycles` is 0. Its PC,
0x0000, and the empty storage are the model's choice (logs 1, 2, 6). -/
def Obligations.ResetStateIsResetOfConstruction : Prop :=
  State.constructed.cycles = 0 ∧ resetCore State.constructed = State.reset

/-- R214, R215, R37, R38: the interrupt inputs set their flag and nothing else, and setting it again changes nothing. -/
def Obligations.InterruptInputsLatch : Prop :=
  ∀ s : State,
    environment .latchNmi s = { s with nmiPending := true } ∧
    environment .requestIrq s = { s with irqPending := true } ∧
    environment .latchNmi (environment .latchNmi s) = environment .latchNmi s ∧
    (s.irqPending = true → s.p &&& 0x04 ≠ 0 → s.nmiPending = false → (pollInterrupts s).irqPending = true)

/-- R40: the state port reads back what it wrote, P with bit 5 as 1, and never writes `cycles`, storage or the record. -/
def Obligations.StatePortReadsBack : Prop :=
  ∀ (s : State) (w : PortWrite),
    (match w with
      | .pc v => (environment (.port w) s).pc = v
      | .sp v => (environment (.port w) s).sp = v
      | .a v => (environment (.port w) s).a = v
      | .x v => (environment (.port w) s).x = v
      | .y v => (environment (.port w) s).y = v
      | .p v => (environment (.port w) s).readP = v ||| 0x20 ∧ (environment (.port w) s).p = v ||| 0x20
      | .nmiPending b => (environment (.port w) s).nmiPending = b
      | .irqPending b => (environment (.port w) s).irqPending = b) ∧
    (environment (.port w) s).cycles = s.cycles ∧ (environment (.port w) s).bus = s.bus

/-- R41: restoring a saved image gives back PC, SP, A, X, Y, P and the RAM image, and keeps `cycles`, the pending
flags and the rest of storage; restored into the state it was saved from, it changes nothing. The model's choice, not
R41's (log 14, unsafe): that the RAM image is storage cells 0 to 0x07FF whichever map is in place, and that saving and
restoring leave the record of accesses unchanged. -/
def Obligations.SaveStateRoundTrip : Prop :=
  ∀ s t : State,
    (saveImage s).length = 9 + 2048 ∧
    (∃ u, restoreImage (saveImage s) t = some u ∧
      u.pc = s.pc ∧ u.sp = s.sp ∧ u.a = s.a ∧ u.x = s.x ∧ u.y = s.y ∧ u.p = s.p ||| 0x20 ∧
      u.cycles = t.cycles ∧ u.nmiPending = t.nmiPending ∧ u.irqPending = t.irqPending ∧
      u.bus.history = t.bus.history ∧
      ∀ k, u.bus.mem.read k = if k < 2048 then s.bus.mem.read k else t.bus.mem.read k) ∧
    (s.Inv → restoreImage (saveImage s) s = some s)

/-! ### Memory and the stack (20_memory.md, 41_stack.md) -/

/-- R56: internal RAM is mirrored every 2 KiB: what a store leaves at one address a load finds at every other address
of the same cell. -/
def Obligations.InternalRamIsMirrored : Prop :=
  ∀ (s : State) (w w' : Addr), s.bus.platform = .nes → w.toNat < 0x2000 → w'.toNat < 0x2000 →
    w.toNat % 0x0800 = w'.toNat % 0x0800 →
    ∃ t u, exec (.sta (.abs w)) s = .next t ∧ exec (.lda (.mem (.abs w'))) t = .next u ∧ u.a = s.a

/-- R54: a store into the program window changes no stored byte, on the console's map. Answers from that window are
free after it: the model's reading of a re-banked mapper (log 4). -/
def Obligations.PrgStoreRebanksAndKeepsBytes : Prop :=
  ∀ (s : State) (m : MemMode), s.bus.platform = .nes → 0x8000 ≤ (locate m s).ea.toNat →
    ∃ t, exec (.sta m) s = .next t ∧ t.bus.mem = s.bus.mem ∧ t.bus.prgRebanked = true ∧
      ∀ a : Addr, a.toNat < 0x8000 → t.bus.peek a = s.bus.peek a

/-- R120, R121: Push and Pull, and the 16-bit forms. -/
def Obligations.StackPrimitives : Prop :=
  ∀ (s : State) (v : Byte) (w : Addr),
    push v s = { s with bus := s.bus.write (0x0100 ||| s.sp.setWidth 16) v, sp := s.sp - 1 } ∧
    push16 w s = push (BitVec.ofNat 8 w.toNat) (push (BitVec.ofNat 8 (w.toNat / 0x100)) s) ∧
    pull s = (s.bus.answer (0x0100 ||| (s.sp + 1).setWidth 16),
      { s with bus := s.bus.afterRead (0x0100 ||| (s.sp + 1).setWidth 16), sp := s.sp + 1 }) ∧
    (pull16 s).1 = (pull (pull s).2).1 ++ (pull s).1 ∧ (pull16 s).2 = (pull (pull s).2).2 ∧
    (s.sp = 0x00 → (push v s).sp = 0xFF) ∧ (s.sp = 0xFF → (pull s).2.sp = 0x00)

/-- R122: 256 pushes return SP to its starting value, the 257th overwrites what the first wrote, and nothing outside
the stack page is written. -/
def Obligations.StackWrapsAfter256Pushes : Prop :=
  ∀ (s : State) (vs : List Byte),
    let t := vs.foldl (fun u v => push v u) s
    (vs.length = 256 → t.sp = s.sp) ∧
    (∀ v, vs.length = 256 → s.bus.platform ≠ .anyBus → (push v t).bus.peek (stackByte s.sp) = some v) ∧
    SameStorageBut ((List.range 256).map (fun k => stackByte (BitVec.ofNat 8 k))) s t

/-- R120, R121, R34, R35 on RAM: PLA finds what PHA pushed, whatever A became; PLP finds the P that PHP pushed, but
for B, which keeps the value it has, and U. -/
def Obligations.PullFindsWhatWasPushed : Prop :=
  ∀ (s : State) (v : Byte), s.bus.platform ≠ .anyBus →
    (∃ t u, exec .pha s = .next t ∧ exec .pla { t with a := v } = .next u ∧ u.a = s.a ∧ u.sp = s.sp) ∧
    (∃ t u, exec .php s = .next t ∧ exec .plp { t with p := v } = .next u ∧ u.sp = s.sp ∧
      u.p = (s.p &&& 0xCF) ||| (v &&& 0x10) ||| 0x20)

/-- R171, R172 on RAM: RTS returns to the instruction after JSR, with SP as it was. -/
def Obligations.RtsReturnsAfterJsr : Prop :=
  ∀ (s : State) (w pc' : Addr), s.bus.platform ≠ .anyBus →
    ∃ t u, exec (.jsr w) s = .next t ∧ exec .rts { t with pc := pc' } = .next u ∧
      t.pc = w ∧ u.pc = s.pc + 3 ∧ u.sp = s.sp

/-- R74 to R79, R81, R82, and the single data read: where each mode's operand lies, when the page is crossed, and
which accesses were made on the way. -/
def Obligations.AddressModes : Prop :=
  ∀ (s : State) (b : Byte) (w : Addr),
    (locate (.zp b) s = ⟨b.setWidth 16, false, s⟩ ∧
      locate (.abs w) s = ⟨w, false, s⟩) ∧
    ((locate (.zpx b) s).ea.toNat = (b.toNat + s.x.toNat) % 256 ∧
      (locate (.zpy b) s).ea.toNat = (b.toNat + s.y.toNat) % 256 ∧
      (locate (.zpx b) s).pageCrossed = false ∧ (locate (.zpy b) s).pageCrossed = false ∧
      (locate (.zpx b) s).st = s ∧ (locate (.zpy b) s).st = s) ∧
    ((locate (.absx w) s).ea.toNat = (w.toNat + s.x.toNat) % 65536 ∧
      ((locate (.absx w) s).pageCrossed = true ↔ w &&& 0xFF00 ≠ (locate (.absx w) s).ea &&& 0xFF00) ∧
      (locate (.absx w) s).st = s) ∧
    ((locate (.absy w) s).ea.toNat = (w.toNat + s.y.toNat) % 65536 ∧
      ((locate (.absy w) s).pageCrossed = true ↔ w &&& 0xFF00 ≠ (locate (.absy w) s).ea &&& 0xFF00) ∧
      (locate (.absy w) s).st = s) ∧
    (let z := BitVec.ofNat 16 ((b.toNat + s.x.toNat) % 256)
     let z' := BitVec.ofNat 16 ((b.toNat + s.x.toNat + 1) % 256)
     let b1 := s.bus.afterRead z
     locate (.indx b) s = ⟨b1.answer z' ++ s.bus.answer z, false, { s with bus := b1.afterRead z' }⟩) ∧
    (let z := BitVec.ofNat 16 b.toNat
     let z' := BitVec.ofNat 16 ((b.toNat + 1) % 256)
     let b1 := s.bus.afterRead z
     let base : Addr := b1.answer z' ++ s.bus.answer z
     (locate (.indy b) s).ea.toNat = (base.toNat + s.y.toNat) % 65536 ∧
      ((locate (.indy b) s).pageCrossed = true ↔ base &&& 0xFF00 ≠ (locate (.indy b) s).ea &&& 0xFF00) ∧
      (locate (.indy b) s).st = { s with bus := b1.afterRead z' })

/-! ### Frames -/

/-- R55, R58: an instruction that is not a store, a read-modify-write of memory, a push, JSR or BRK leaves every byte
of storage as it was, and all the accesses it makes are reads. -/
def Obligations.NonStoringKeepsMemory : Prop :=
  ∀ i s t, i.writesMemory = false → exec i s = .next t → SameStorage s t ∧ OnlyReads s t

/-- R103 to R105, R139, R140, R160 to R163: a store or read-modify-write of memory changes no byte but the one at its
effective address, which holds the byte of its one write where RAM is there; A, X, Y, SP and the pending flags stay.
Which bytes a write can change is `Platform.touches`: that one to a device, or to 0x4020–0x7FFF, changes none is the
model's choice (logs 3, 19). -/
def Obligations.StoringKeepsOtherBytes : Prop :=
  ∀ (m : MemMode) (i : Instr) (s t : State),
    i ∈ [Instr.sta m, .stx m, .sty m, .inc m, .dec m, .asl (.mem m), .lsr (.mem m), .rol (.mem m), .ror (.mem m)] →
    exec i s = .next t →
    SameStorageBut [(locate m s).ea] s t ∧
    (∃ v reads, t.bus.history = .write (locate m s).ea v :: (reads ++ s.bus.history) ∧
      (∀ e ∈ reads, ∃ a u, e = BusEvent.read a u) ∧
      ∀ k, s.bus.platform.region (locate m s).ea = .ram k → t.bus.peek (locate m s).ea = some v) ∧
    t.a = s.a ∧ t.x = s.x ∧ t.y = s.y ∧ t.sp = s.sp ∧ t.nmiPending = s.nmiPending ∧ t.irqPending = s.irqPending

/-- R120, R123, R124, R171, R181: a push, JSR or BRK changes no byte but the one, two or three stack bytes from SP
down. -/
def Obligations.PushingKeepsOtherBytes : Prop :=
  ∀ s : State,
    (∃ t, exec .pha s = .next t ∧ SameStorageBut [stackByte s.sp] s t) ∧
    (∃ t, exec .php s = .next t ∧ SameStorageBut [stackByte s.sp] s t) ∧
    (∀ w, ∃ t, exec (.jsr w) s = .next t ∧ SameStorageBut [stackByte s.sp, stackByte (s.sp - 1)] s t) ∧
    (∃ t, exec .brk s = .next t ∧
      SameStorageBut [stackByte s.sp, stackByte (s.sp - 1), stackByte (s.sp - 2)] s t)

/-- The writers of A, X, Y and SP that R21 to R24 list are the only ones; no instruction writes a pending flag. -/
def Obligations.RegisterWriters : Prop :=
  ∀ i s t, exec i s = .next t →
    (i.writesA = false → t.a = s.a) ∧ (i.writesX = false → t.x = s.x) ∧ (i.writesY = false → t.y = s.y) ∧
    (i.writesSp = false → t.sp = s.sp) ∧ t.nmiPending = s.nmiPending ∧ t.irqPending = s.irqPending

/-- The writers of Z, N, C, V, I and D that R27 to R31 list are the only ones; no instruction changes B (R32), and
none clears bit 5 (R33). -/
def Obligations.FlagWriters : Prop :=
  ∀ i s t, exec i s = .next t →
    (i.writesNZ = false → t.flag .zero = s.flag .zero ∧ t.flag .negative = s.flag .negative) ∧
    (i.writesC = false → t.flag .carry = s.flag .carry) ∧
    (i.writesV = false → t.flag .overflow = s.flag .overflow) ∧
    (i.writesI = false → t.flag .interruptDisable = s.flag .interruptDisable) ∧
    (i.writesD = false → t.flag .decimal = s.flag .decimal) ∧
    t.flag .brk = s.flag .brk ∧
    (s.flag .unused = true → t.flag .unused = true)

/-! ### What an instruction cannot learn -/

/-- The readers of A that R21 lists are the only ones: to any other instruction, A is a value it keeps or overwrites. -/
def Obligations.AccumulatorReaders : Prop :=
  ∀ (i : Instr) (s : State) (v : Byte), i.readsA = false →
    ∃ t, exec i s = .next t ∧ exec i { s with a := v } = .next (if i.writesA then t else { t with a := v })

/-- The readers of X and Y that R22 and R23 list, the indexed address modes among them, are the only ones. -/
def Obligations.IndexRegisterReaders : Prop :=
  ∀ (i : Instr) (s : State) (v : Byte),
    (i.readsX = false →
      ∃ t, exec i s = .next t ∧ exec i { s with x := v } = .next (if i.writesX then t else { t with x := v })) ∧
    (i.readsY = false →
      ∃ t, exec i s = .next t ∧ exec i { s with y := v } = .next (if i.writesY then t else { t with y := v }))

/-- No instruction reads the stored B (R32): a step of every instruction is the same but for B itself. -/
def Obligations.BreakFlagIsNeverRead : Prop :=
  ∀ (i : Instr) (s : State),
    ∃ t, exec i s = .next t ∧ exec i { s with p := s.p ^^^ 0x10 } = .next { t with p := t.p ^^^ 0x10 }

/-- Derived from R31 and R146: D never changes an arithmetic result, nor anything else that an instruction other than SED, CLD, PHP,
PLP, BRK and RTI does. -/
def Obligations.DecimalFlagHasNoEffect : Prop :=
  ∀ (i : Instr) (s : State), i.usesD = false →
    ∃ t, exec i s = .next t ∧ exec i { s with p := s.p ^^^ 0x08 } = .next { t with p := t.p ^^^ 0x08 }

/-- R36, R254: no instruction reads `cycles`, and each adds to it an amount that does not depend on it. -/
def Obligations.CycleCounterIsNeverRead : Prop :=
  ∀ (i : Instr) (s : State) (n : Nat),
    ∃ t, exec i s = .next t ∧ s.cycles < t.cycles ∧
      exec i { s with cycles := s.cycles + n } = .next { t with cycles := t.cycles + n }

/-! ### Invariants -/

/-- Every step keeps storage canonical and bit 5 of P at 1 (R33). -/
def Obligations.StepKeepsInvariant : Prop :=
  ∀ s t, s.Inv → step s = .next t → t.Inv

/-- The state after reset meets the invariant. -/
def Obligations.ResetMeetsInvariant : Prop := State.reset.Inv

/-- Every environment action keeps the invariant: whatever the host offers for P, bit 5 is stored as 1 (R33). -/
def Obligations.EnvironmentKeepsInvariant : Prop :=
  ∀ e s, s.Inv → (environment e s).Inv

/-- Every run of steps and environment actions completes, and keeps the invariant (R244, R33). -/
def Obligations.RunsCompleteAndKeepInvariant : Prop :=
  ∀ (es : List Event) (s : State), s.Inv → ∃ t, runEvents es s = .next t ∧ t.Inv ∧ (s.cycles ≤ t.cycles)

/-! ### Results: loads, stores, transfers (40_load_store_transfer.md) -/

/-- R100: LDA. -/
def Obligations.LdaForms : Prop :=
  AluForms .lda 0xA9 0xA5 0xB5 0xAD 0xBD 0xB9 0xA1 0xB1 (fun v t => { t with a := v, p := withNZ t.p v })

/-- R101, R102: LDX and LDY. -/
def Obligations.LdxLdyForms : Prop :=
  ∀ v lo hi : Byte,
    let x := fun (v : Byte) (t : State) => { t with x := v, p := withNZ t.p v }
    let y := fun (v : Byte) (t : State) => { t with y := v, p := withNZ t.p v }
    (ImmediateForm .ldx 0xA2 v x ∧
      ReadForm (.ldx (.mem (.zp lo))) [0xA6, lo] (.zp lo) 3 0 x ∧
      ReadForm (.ldx (.mem (.zpy lo))) [0xB6, lo] (.zpy lo) 4 0 x ∧
      ReadForm (.ldx (.mem (.abs (hi ++ lo)))) [0xAE, lo, hi] (.abs (hi ++ lo)) 4 0 x ∧
      ReadForm (.ldx (.mem (.absy (hi ++ lo)))) [0xBE, lo, hi] (.absy (hi ++ lo)) 4 1 x) ∧
    (ImmediateForm .ldy 0xA0 v y ∧
      ReadForm (.ldy (.mem (.zp lo))) [0xA4, lo] (.zp lo) 3 0 y ∧
      ReadForm (.ldy (.mem (.zpx lo))) [0xB4, lo] (.zpx lo) 4 0 y ∧
      ReadForm (.ldy (.mem (.abs (hi ++ lo)))) [0xAC, lo, hi] (.abs (hi ++ lo)) 4 0 y ∧
      ReadForm (.ldy (.mem (.absx (hi ++ lo)))) [0xBC, lo, hi] (.absx (hi ++ lo)) 4 1 y)

/-- R103 to R105: STA, STX and STY. -/
def Obligations.StoreForms : Prop :=
  ∀ lo hi : Byte,
    let w : Addr := hi ++ lo
    (StoreForm (.sta (.zp lo)) [0x85, lo] (.zp lo) 3 State.a ∧
      StoreForm (.sta (.zpx lo)) [0x95, lo] (.zpx lo) 4 State.a ∧
      StoreForm (.sta (.abs w)) [0x8D, lo, hi] (.abs w) 4 State.a ∧
      StoreForm (.sta (.absx w)) [0x9D, lo, hi] (.absx w) 5 State.a ∧
      StoreForm (.sta (.absy w)) [0x99, lo, hi] (.absy w) 5 State.a ∧
      StoreForm (.sta (.indx lo)) [0x81, lo] (.indx lo) 6 State.a ∧
      StoreForm (.sta (.indy lo)) [0x91, lo] (.indy lo) 6 State.a) ∧
    (StoreForm (.stx (.zp lo)) [0x86, lo] (.zp lo) 3 State.x ∧
      StoreForm (.stx (.zpy lo)) [0x96, lo] (.zpy lo) 4 State.x ∧
      StoreForm (.stx (.abs w)) [0x8E, lo, hi] (.abs w) 4 State.x) ∧
    (StoreForm (.sty (.zp lo)) [0x84, lo] (.zp lo) 3 State.y ∧
      StoreForm (.sty (.zpx lo)) [0x94, lo] (.zpx lo) 4 State.y ∧
      StoreForm (.sty (.abs w)) [0x8C, lo, hi] (.abs w) 4 State.y)

/-- R106 to R111: TAX, TAY, TSX, TXA, TXS and TYA. -/
def Obligations.TransferForms : Prop :=
  ImpliedForm .tax 0xAA 2 (fun s => { s with x := s.a, p := withNZ s.p s.a }) ∧
  ImpliedForm .tay 0xA8 2 (fun s => { s with y := s.a, p := withNZ s.p s.a }) ∧
  ImpliedForm .tsx 0xBA 2 (fun s => { s with x := s.sp, p := withNZ s.p s.sp }) ∧
  ImpliedForm .txa 0x8A 2 (fun s => { s with a := s.x, p := withNZ s.p s.x }) ∧
  ImpliedForm .txs 0x9A 2 (fun s => { s with sp := s.x }) ∧
  ImpliedForm .tya 0x98 2 (fun s => { s with a := s.y, p := withNZ s.p s.y })

/-! ### Results: stack (41_stack.md) -/

/-- R123 to R126: PHA, PHP, PLA and PLP. -/
def Obligations.StackForms : Prop :=
  ImpliedForm .pha 0x48 3 (fun s => { s with bus := s.bus.write (stackByte s.sp) s.a, sp := s.sp - 1 }) ∧
  ImpliedForm .php 0x08 3
    (fun s => { s with bus := s.bus.write (stackByte s.sp) ((s.p &&& 0xCF) ||| 0x30), sp := s.sp - 1 }) ∧
  ImpliedForm .pla 0x68 4
    (fun s =>
      let v := s.bus.answer (stackByte (s.sp + 1))
      { s with a := v, p := withNZ s.p v, bus := s.bus.afterRead (stackByte (s.sp + 1)), sp := s.sp + 1 }) ∧
  ImpliedForm .plp 0x28 4
    (fun s =>
      let v := s.bus.answer (stackByte (s.sp + 1))
      { s with
        p := (v &&& 0xCF) ||| (s.p &&& 0x10) ||| 0x20
        bus := s.bus.afterRead (stackByte (s.sp + 1))
        sp := s.sp + 1 })

/-! ### Results: arithmetic and logic (42_arith_logic.md) -/

/-- R130: ADC. -/
def Obligations.AdcForms : Prop :=
  AluForms .adc 0x69 0x65 0x75 0x6D 0x7D 0x79 0x61 0x71 sumIntoA

/-- R131: SBC, the sum with the complemented operand. -/
def Obligations.SbcForms : Prop :=
  AluForms .sbc 0xE9 0xE5 0xF5 0xED 0xFD 0xF9 0xE1 0xF1 (fun v t => sumIntoA (v ^^^ 0xFF) t)

/-- R131, "Equivalently": on integers SBC is `A - M - (1 - C)`, C is 1 when that is not negative, and V compares the
signs of A, M and the result. -/
def Obligations.SbcSubtractsWithBorrow : Prop :=
  ∀ (v : Byte) (s : State), ∃ t, exec (.sbc (.imm v)) s = .next t ∧
    (let d : Int := s.a.toNat - v.toNat - (1 - (s.p &&& 0x01).toNat)
     t.a = BitVec.ofInt 8 d ∧ (t.flag .carry = true ↔ 0 ≤ d) ∧
     (t.flag .overflow = true ↔ (s.a ^^^ v) &&& (s.a ^^^ t.a) &&& 0x80 ≠ 0))

/-- R130, R145: V of ADC is two's-complement overflow: the signed sum with the carry is out of -128 to 127. -/
def Obligations.AdcOverflowIsSignedOverflow : Prop :=
  ∀ (v : Byte) (s : State), ∃ t, exec (.adc (.imm v)) s = .next t ∧
    (let sum : Int := s.a.toInt + v.toInt + (s.p &&& 0x01).toNat
     (t.flag .overflow = true ↔ (sum < -128 ∨ 127 < sum)) ∧ (t.flag .overflow = false → t.a.toInt = sum))

/-- R132 to R134: AND, ORA and EOR. -/
def Obligations.LogicForms : Prop :=
  AluForms .and 0x29 0x25 0x35 0x2D 0x3D 0x39 0x21 0x31
    (fun v t => { t with a := t.a &&& v, p := withNZ t.p (t.a &&& v) }) ∧
  AluForms .ora 0x09 0x05 0x15 0x0D 0x1D 0x19 0x01 0x11
    (fun v t => { t with a := t.a ||| v, p := withNZ t.p (t.a ||| v) }) ∧
  AluForms .eor 0x49 0x45 0x55 0x4D 0x5D 0x59 0x41 0x51
    (fun v t => { t with a := t.a ^^^ v, p := withNZ t.p (t.a ^^^ v) })

/-- R135, R137, R138: CMP, CPX and CPY. -/
def Obligations.CompareForms : Prop :=
  AluForms .cmp 0xC9 0xC5 0xD5 0xCD 0xDD 0xD9 0xC1 0xD1 (fun v t => { t with p := comparedP t.p t.a v }) ∧
  ∀ v lo hi : Byte,
    let w : Addr := hi ++ lo
    let x := fun (v : Byte) (t : State) => { t with p := comparedP t.p t.x v }
    let y := fun (v : Byte) (t : State) => { t with p := comparedP t.p t.y v }
    (ImmediateForm .cpx 0xE0 v x ∧
      ReadForm (.cpx (.mem (.zp lo))) [0xE4, lo] (.zp lo) 3 0 x ∧
      ReadForm (.cpx (.mem (.abs w))) [0xEC, lo, hi] (.abs w) 4 0 x) ∧
    (ImmediateForm .cpy 0xC0 v y ∧
      ReadForm (.cpy (.mem (.zp lo))) [0xC4, lo] (.zp lo) 3 0 y ∧
      ReadForm (.cpy (.mem (.abs w))) [0xCC, lo, hi] (.abs w) 4 0 y)

/-- R136: BIT: N and V copy bits 7 and 6 of M, Z is that of `A & M`. -/
def Obligations.BitForms : Prop :=
  ∀ lo hi : Byte,
    let f := fun (v : Byte) (t : State) =>
      { t with p := (t.p &&& 0x3D) ||| (v &&& 0xC0) ||| (if t.a &&& v = 0 then 0x02 else 0x00) }
    ReadForm (.bit (.zp lo)) [0x24, lo] (.zp lo) 3 0 f ∧
    ReadForm (.bit (.abs (hi ++ lo))) [0x2C, lo, hi] (.abs (hi ++ lo)) 4 0 f

/-- R139, R140: INC and DEC of memory. -/
def Obligations.IncDecForms : Prop :=
  ModifyForms .inc 0xE6 0xF6 0xEE 0xFE (fun v p => (v + 1, withNZ p (v + 1))) ∧
  ModifyForms .dec 0xC6 0xD6 0xCE 0xDE (fun v p => (v - 1, withNZ p (v - 1)))

/-- R141 to R144: INX, INY, DEX and DEY. -/
def Obligations.IndexIncDecForms : Prop :=
  ImpliedForm .inx 0xE8 2 (fun s => { s with x := s.x + 1, p := withNZ s.p (s.x + 1) }) ∧
  ImpliedForm .iny 0xC8 2 (fun s => { s with y := s.y + 1, p := withNZ s.p (s.y + 1) }) ∧
  ImpliedForm .dex 0xCA 2 (fun s => { s with x := s.x - 1, p := withNZ s.p (s.x - 1) }) ∧
  ImpliedForm .dey 0x88 2 (fun s => { s with y := s.y - 1, p := withNZ s.p (s.y - 1) })

/-! ### Results: shifts (43_shift_rotate.md) -/

/-- R160 to R163: ASL, LSR, ROL and ROR, by exact integers: the result and the bit that goes to C. -/
def Obligations.ShiftResults : Prop :=
  ShiftForms .asl 0x0A 0x06 0x16 0x0E 0x1E
    (fun v p => (BitVec.ofNat 8 (2 * v.toNat), withNZ (withC p (decide (0x80 ≤ v.toNat))) (BitVec.ofNat 8 (2 * v.toNat)))) ∧
  ShiftForms .lsr 0x4A 0x46 0x56 0x4E 0x5E
    (fun v p => (BitVec.ofNat 8 (v.toNat / 2), withNZ (withC p (decide (v.toNat % 2 = 1))) (BitVec.ofNat 8 (v.toNat / 2)))) ∧
  ShiftForms .rol 0x2A 0x26 0x36 0x2E 0x3E
    (fun v p =>
      let r := BitVec.ofNat 8 (2 * v.toNat + p.toNat % 2)
      (r, withNZ (withC p (decide (0x80 ≤ v.toNat))) r)) ∧
  ShiftForms .ror 0x6A 0x66 0x76 0x6E 0x7E
    (fun v p =>
      let r := BitVec.ofNat 8 (v.toNat / 2 + 0x80 * (p.toNat % 2))
      (r, withNZ (withC p (decide (v.toNat % 2 = 1))) r))

/-! ### Results: control transfer (44_control_transfer.md) -/

/-- R170, R80: JMP absolute, and indirect with the page wrap. -/
def Obligations.JmpForms : Prop :=
  ∀ lo hi : Byte,
    let w : Addr := hi ++ lo
    (Encodes (.jmp (.abs w)) [0x4C, lo, hi] ∧
      ∀ s, exec (.jmp (.abs w)) s = .next { s with pc := w, cycles := s.cycles + 3 }) ∧
    (Encodes (.jmp (.ind w)) [0x6C, lo, hi] ∧
      ∀ s, exec (.jmp (.ind w)) s = .next
        (let w' := (w &&& 0xFF00) ||| ((w + 1) &&& 0x00FF)
         let b1 := s.bus.afterRead w
         { s with pc := b1.answer w' ++ s.bus.answer w, cycles := s.cycles + 5, bus := b1.afterRead w' }))

/-- R171, R172: JSR pushes the address of its own last byte, high byte first; RTS goes to the pulled address plus 1. -/
def Obligations.JsrRtsForms : Prop :=
  (∀ lo hi : Byte,
    Encodes (.jsr (hi ++ lo)) [0x20, lo, hi] ∧
    ∀ s, exec (.jsr (hi ++ lo)) s = .next
      (let ret := s.pc + 2
       { s with
          pc := hi ++ lo
          sp := s.sp - 2
          cycles := s.cycles + 6
          bus := (s.bus.write (stackByte s.sp) (BitVec.ofNat 8 (ret.toNat / 0x100))).write
            (stackByte (s.sp - 1)) (BitVec.ofNat 8 ret.toNat) })) ∧
  (Encodes .rts [0x60] ∧
    ∀ s, exec .rts s = .next
      (let b1 := s.bus.afterRead (stackByte (s.sp + 1))
       let w : Addr := b1.answer (stackByte (s.sp + 2)) ++ s.bus.answer (stackByte (s.sp + 1))
       { s with pc := w + 1, sp := s.sp + 2, cycles := s.cycles + 6, bus := b1.afterRead (stackByte (s.sp + 2)) }))

/-- R173 to R180: the eight branches, each with the bit of P it tests. -/
def Obligations.BranchForms : Prop :=
  BranchForm .bpl 0x10 (fun s => decide (s.p &&& 0x80 = 0)) ∧ BranchForm .bmi 0x30 (fun s => decide (s.p &&& 0x80 ≠ 0)) ∧
  BranchForm .bvc 0x50 (fun s => decide (s.p &&& 0x40 = 0)) ∧ BranchForm .bvs 0x70 (fun s => decide (s.p &&& 0x40 ≠ 0)) ∧
  BranchForm .bcc 0x90 (fun s => decide (s.p &&& 0x01 = 0)) ∧ BranchForm .bcs 0xB0 (fun s => decide (s.p &&& 0x01 ≠ 0)) ∧
  BranchForm .bne 0xD0 (fun s => decide (s.p &&& 0x02 = 0)) ∧ BranchForm .beq 0xF0 (fun s => decide (s.p &&& 0x02 ≠ 0))

/-! ### Results: flags, NOP, unofficial opcodes (45_flags_misc.md) -/

/-- R190 to R196: each flag instruction changes its flag and nothing else. -/
def Obligations.FlagForms : Prop :=
  ImpliedForm .clc 0x18 2 (fun s => { s with p := s.p &&& 0xFE }) ∧ ImpliedForm .sec 0x38 2 (fun s => { s with p := s.p ||| 0x01 }) ∧
  ImpliedForm .cli 0x58 2 (fun s => { s with p := s.p &&& 0xFB }) ∧ ImpliedForm .sei 0x78 2 (fun s => { s with p := s.p ||| 0x04 }) ∧
  ImpliedForm .clv 0xB8 2 (fun s => { s with p := s.p &&& 0xBF }) ∧ ImpliedForm .cld 0xD8 2 (fun s => { s with p := s.p &&& 0xF7 }) ∧
  ImpliedForm .sed 0xF8 2 (fun s => { s with p := s.p ||| 0x08 })

/-- R197, R198: NOP, and each of the 105 unofficial bytes, moves one byte on in 2 cycles and changes nothing else. -/
def Obligations.NoOperationForms : Prop :=
  ImpliedForm .nop 0xEA 2 (fun s => s) ∧
  ∀ op ∈ unofficialOpcodes, ImpliedForm (.unofficial op) op 2 (fun s => s)
end

