-- ==== Sys2Proof/Laws/Decode.lean ====
section
/-! SUPPORT. Words as two bytes, and decoding a list of bytes whose opcode's length is known. -/

namespace Sys2Proof

theorem lowByte_append (hi lo : Byte) : lowByte (hi ++ lo) = lo := by
  unfold lowByte
  apply BitVec.eq_of_getLsbD_eq
  intro i h
  rw [BitVec.getLsbD_extractLsb']
  erw [BitVec.getLsbD_append]
  simp [h]

theorem highByte_append (hi lo : Byte) : highByte (hi ++ lo) = hi := by
  unfold highByte
  apply BitVec.eq_of_getLsbD_eq
  intro i h
  rw [BitVec.getLsbD_extractLsb']
  erw [BitVec.getLsbD_append]
  simp [h]

theorem joinBytes_high_low (w : Addr) : joinBytes (highByte w) (lowByte w) = w := by
  unfold joinBytes highByte lowByte
  apply BitVec.eq_of_getLsbD_eq
  intro i hi
  rw [BitVec.getLsbD_append]
  by_cases h : i < 8
  · simp [h]
  · simp [h, show i - 8 < 8 by omega, show 8 + (i - 8) = i by omega]

/-- Every word is two bytes. -/
theorem exists_append (w : Addr) : ∃ hi lo : Byte, w = hi ++ lo :=
  ⟨highByte w, lowByte w, (joinBytes_high_low w).symm⟩

theorem highByte_eq (w : Addr) : highByte w = BitVec.ofNat 8 (w.toNat / 0x100) := by
  apply BitVec.eq_of_toNat_eq
  simp [highByte, Nat.shiftRight_eq_div_pow]

theorem lowByte_eq (w : Addr) : lowByte w = BitVec.ofNat 8 w.toNat := by
  apply BitVec.eq_of_toNat_eq
  simp [lowByte]

/-! ### Decoding by length -/

theorem decode_one {op : Byte} (h : opcodeLength op = 1) (rest : List Byte) :
    decode (op :: rest) = .ok (decodeOpcode op 0 0, rest) := by
  simp only [decode, h]

theorem decode_two {op : Byte} (h : opcodeLength op = 2) (b1 : Byte) (rest : List Byte) :
    decode (op :: b1 :: rest) = .ok (decodeOpcode op b1 0, rest) := by
  simp only [decode, h]

theorem decode_three {op : Byte} (h : opcodeLength op = 3) (b1 b2 : Byte) (rest : List Byte) :
    decode (op :: b1 :: b2 :: rest) = .ok (decodeOpcode op b1 b2, rest) := by
  simp only [decode, h]

/-- What a successful decoding says of the bytes: the opcode's length, and that many bytes. -/
theorem decode_ok {bytes rest : List Byte} {i : Instr} (h : decode bytes = .ok (i, rest)) :
    ∃ op, (opcodeLength op = 1 ∧ bytes = op :: rest ∧ i = decodeOpcode op 0 0) ∨
      (∃ b1, opcodeLength op = 2 ∧ bytes = op :: b1 :: rest ∧ i = decodeOpcode op b1 0) ∨
      (∃ b1 b2, opcodeLength op = 3 ∧ bytes = op :: b1 :: b2 :: rest ∧ i = decodeOpcode op b1 b2) := by
  unfold decode at h
  split at h
  · cases h
  · rename_i op tail
    refine ⟨op, ?_⟩
    split at h <;> cases h
    · exact .inl ⟨‹_›, rfl, rfl⟩
    · exact .inr (.inl ⟨_, ‹_›, rfl, rfl⟩)
    · exact .inr (.inr ⟨_, _, ‹_›, rfl, rfl⟩)

end Sys2Proof
end

