-- ==== Sys2Proof/Laws/State.lean ====
section
/-! SUPPORT. What each update of the state leaves in each field: one lemma per field per update, so that no later
proof unfolds a record update. -/

namespace Sys2Proof.Machine

/-! ### Registers -/

@[simp] theorem State.setReg_pc (r : Reg) (v : Byte) (s : State) : (s.setReg r v).pc = s.pc := by cases r <;> rfl
@[simp] theorem State.setReg_p (r : Reg) (v : Byte) (s : State) : (s.setReg r v).p = s.p := by cases r <;> rfl
@[simp] theorem State.setReg_cycles (r : Reg) (v : Byte) (s : State) : (s.setReg r v).cycles = s.cycles := by cases r <;> rfl
@[simp] theorem State.setReg_nmiPending (r : Reg) (v : Byte) (s : State) : (s.setReg r v).nmiPending = s.nmiPending := by cases r <;> rfl
@[simp] theorem State.setReg_irqPending (r : Reg) (v : Byte) (s : State) : (s.setReg r v).irqPending = s.irqPending := by cases r <;> rfl
@[simp] theorem State.setReg_bus (r : Reg) (v : Byte) (s : State) : (s.setReg r v).bus = s.bus := by cases r <;> rfl

@[simp] theorem State.setReg_a_sp (v : Byte) (s : State) : (s.setReg .a v).sp = s.sp := rfl
@[simp] theorem State.setReg_a_a (v : Byte) (s : State) : (s.setReg .a v).a = v := rfl
@[simp] theorem State.setReg_a_x (v : Byte) (s : State) : (s.setReg .a v).x = s.x := rfl
@[simp] theorem State.setReg_a_y (v : Byte) (s : State) : (s.setReg .a v).y = s.y := rfl
@[simp] theorem State.setReg_x_sp (v : Byte) (s : State) : (s.setReg .x v).sp = s.sp := rfl
@[simp] theorem State.setReg_x_a (v : Byte) (s : State) : (s.setReg .x v).a = s.a := rfl
@[simp] theorem State.setReg_x_x (v : Byte) (s : State) : (s.setReg .x v).x = v := rfl
@[simp] theorem State.setReg_x_y (v : Byte) (s : State) : (s.setReg .x v).y = s.y := rfl
@[simp] theorem State.setReg_y_sp (v : Byte) (s : State) : (s.setReg .y v).sp = s.sp := rfl
@[simp] theorem State.setReg_y_a (v : Byte) (s : State) : (s.setReg .y v).a = s.a := rfl
@[simp] theorem State.setReg_y_x (v : Byte) (s : State) : (s.setReg .y v).x = s.x := rfl
@[simp] theorem State.setReg_y_y (v : Byte) (s : State) : (s.setReg .y v).y = v := rfl
@[simp] theorem State.setReg_sp_sp (v : Byte) (s : State) : (s.setReg .sp v).sp = v := rfl
@[simp] theorem State.setReg_sp_a (v : Byte) (s : State) : (s.setReg .sp v).a = s.a := rfl
@[simp] theorem State.setReg_sp_x (v : Byte) (s : State) : (s.setReg .sp v).x = s.x := rfl
@[simp] theorem State.setReg_sp_y (v : Byte) (s : State) : (s.setReg .sp v).y = s.y := rfl

/-- Reading a register after a write. -/
theorem State.getReg_setReg (r r' : Reg) (v : Byte) (s : State) :
    (s.setReg r v).getReg r' = if r' = r then v else s.getReg r' := by
  cases r <;> cases r' <;> rfl

/-! ### Flags -/

@[simp] theorem State.setFlag_pc (f : Flag) (b : Bool) (s : State) : (s.setFlag f b).pc = s.pc := rfl
@[simp] theorem State.setFlag_sp (f : Flag) (b : Bool) (s : State) : (s.setFlag f b).sp = s.sp := rfl
@[simp] theorem State.setFlag_a (f : Flag) (b : Bool) (s : State) : (s.setFlag f b).a = s.a := rfl
@[simp] theorem State.setFlag_x (f : Flag) (b : Bool) (s : State) : (s.setFlag f b).x = s.x := rfl
@[simp] theorem State.setFlag_y (f : Flag) (b : Bool) (s : State) : (s.setFlag f b).y = s.y := rfl
@[simp] theorem State.setFlag_p (f : Flag) (b : Bool) (s : State) : (s.setFlag f b).p = setBit s.p f.position b := rfl
@[simp] theorem State.setFlag_cycles (f : Flag) (b : Bool) (s : State) : (s.setFlag f b).cycles = s.cycles := rfl
@[simp] theorem State.setFlag_nmiPending (f : Flag) (b : Bool) (s : State) : (s.setFlag f b).nmiPending = s.nmiPending := rfl
@[simp] theorem State.setFlag_irqPending (f : Flag) (b : Bool) (s : State) : (s.setFlag f b).irqPending = s.irqPending := rfl
@[simp] theorem State.setFlag_bus (f : Flag) (b : Bool) (s : State) : (s.setFlag f b).bus = s.bus := rfl

/-! ### P -/

@[simp] theorem State.writeP_pc (v : Byte) (s : State) : (s.writeP v).pc = s.pc := rfl
@[simp] theorem State.writeP_sp (v : Byte) (s : State) : (s.writeP v).sp = s.sp := rfl
@[simp] theorem State.writeP_a (v : Byte) (s : State) : (s.writeP v).a = s.a := rfl
@[simp] theorem State.writeP_x (v : Byte) (s : State) : (s.writeP v).x = s.x := rfl
@[simp] theorem State.writeP_y (v : Byte) (s : State) : (s.writeP v).y = s.y := rfl
@[simp] theorem State.writeP_p (v : Byte) (s : State) : (s.writeP v).p = v ||| 0x20 := rfl
@[simp] theorem State.writeP_cycles (v : Byte) (s : State) : (s.writeP v).cycles = s.cycles := rfl
@[simp] theorem State.writeP_nmiPending (v : Byte) (s : State) : (s.writeP v).nmiPending = s.nmiPending := rfl
@[simp] theorem State.writeP_irqPending (v : Byte) (s : State) : (s.writeP v).irqPending = s.irqPending := rfl
@[simp] theorem State.writeP_bus (v : Byte) (s : State) : (s.writeP v).bus = s.bus := rfl

/-! ### N and Z -/

@[simp] theorem setNZ_pc (v : Byte) (s : State) : (setNZ v s).pc = s.pc := rfl
@[simp] theorem setNZ_sp (v : Byte) (s : State) : (setNZ v s).sp = s.sp := rfl
@[simp] theorem setNZ_a (v : Byte) (s : State) : (setNZ v s).a = s.a := rfl
@[simp] theorem setNZ_x (v : Byte) (s : State) : (setNZ v s).x = s.x := rfl
@[simp] theorem setNZ_y (v : Byte) (s : State) : (setNZ v s).y = s.y := rfl
@[simp] theorem setNZ_p (v : Byte) (s : State) : (setNZ v s).p = setBit (setBit s.p 1 (v == 0)) 7 (v.getLsbD 7) := rfl
@[simp] theorem setNZ_cycles (v : Byte) (s : State) : (setNZ v s).cycles = s.cycles := rfl
@[simp] theorem setNZ_nmiPending (v : Byte) (s : State) : (setNZ v s).nmiPending = s.nmiPending := rfl
@[simp] theorem setNZ_irqPending (v : Byte) (s : State) : (setNZ v s).irqPending = s.irqPending := rfl
@[simp] theorem setNZ_bus (v : Byte) (s : State) : (setNZ v s).bus = s.bus := rfl

/-! ### A sum into A -/

@[simp] theorem addToA_pc (m : Byte) (s : State) : (addToA m s).pc = s.pc := rfl
@[simp] theorem addToA_sp (m : Byte) (s : State) : (addToA m s).sp = s.sp := rfl
@[simp] theorem addToA_a (m : Byte) (s : State) : (addToA m s).a = addResult s.a m (s.flag .carry) := rfl
@[simp] theorem addToA_x (m : Byte) (s : State) : (addToA m s).x = s.x := rfl
@[simp] theorem addToA_y (m : Byte) (s : State) : (addToA m s).y = s.y := rfl
@[simp] theorem addToA_cycles (m : Byte) (s : State) : (addToA m s).cycles = s.cycles := rfl
@[simp] theorem addToA_nmiPending (m : Byte) (s : State) : (addToA m s).nmiPending = s.nmiPending := rfl
@[simp] theorem addToA_irqPending (m : Byte) (s : State) : (addToA m s).irqPending = s.irqPending := rfl
@[simp] theorem addToA_bus (m : Byte) (s : State) : (addToA m s).bus = s.bus := rfl

/-! ### A comparison -/

@[simp] theorem compareFlags_pc (r m : Byte) (s : State) : (compareFlags r m s).pc = s.pc := rfl
@[simp] theorem compareFlags_sp (r m : Byte) (s : State) : (compareFlags r m s).sp = s.sp := rfl
@[simp] theorem compareFlags_a (r m : Byte) (s : State) : (compareFlags r m s).a = s.a := rfl
@[simp] theorem compareFlags_x (r m : Byte) (s : State) : (compareFlags r m s).x = s.x := rfl
@[simp] theorem compareFlags_y (r m : Byte) (s : State) : (compareFlags r m s).y = s.y := rfl
@[simp] theorem compareFlags_cycles (r m : Byte) (s : State) : (compareFlags r m s).cycles = s.cycles := rfl
@[simp] theorem compareFlags_nmiPending (r m : Byte) (s : State) : (compareFlags r m s).nmiPending = s.nmiPending := rfl
@[simp] theorem compareFlags_irqPending (r m : Byte) (s : State) : (compareFlags r m s).irqPending = s.irqPending := rfl
@[simp] theorem compareFlags_bus (r m : Byte) (s : State) : (compareFlags r m s).bus = s.bus := rfl

/-! ### A bit test -/

@[simp] theorem bitFlags_pc (m : Byte) (s : State) : (bitFlags m s).pc = s.pc := rfl
@[simp] theorem bitFlags_sp (m : Byte) (s : State) : (bitFlags m s).sp = s.sp := rfl
@[simp] theorem bitFlags_a (m : Byte) (s : State) : (bitFlags m s).a = s.a := rfl
@[simp] theorem bitFlags_x (m : Byte) (s : State) : (bitFlags m s).x = s.x := rfl
@[simp] theorem bitFlags_y (m : Byte) (s : State) : (bitFlags m s).y = s.y := rfl
@[simp] theorem bitFlags_cycles (m : Byte) (s : State) : (bitFlags m s).cycles = s.cycles := rfl
@[simp] theorem bitFlags_nmiPending (m : Byte) (s : State) : (bitFlags m s).nmiPending = s.nmiPending := rfl
@[simp] theorem bitFlags_irqPending (m : Byte) (s : State) : (bitFlags m s).irqPending = s.irqPending := rfl
@[simp] theorem bitFlags_bus (m : Byte) (s : State) : (bitFlags m s).bus = s.bus := rfl

/-! ### The end of an instruction -/

@[simp] theorem finish_pc (len cost : Nat) (s : State) : (finish len cost s).pc = s.pc + BitVec.ofNat 16 len := rfl
@[simp] theorem finish_sp (len cost : Nat) (s : State) : (finish len cost s).sp = s.sp := rfl
@[simp] theorem finish_a (len cost : Nat) (s : State) : (finish len cost s).a = s.a := rfl
@[simp] theorem finish_x (len cost : Nat) (s : State) : (finish len cost s).x = s.x := rfl
@[simp] theorem finish_y (len cost : Nat) (s : State) : (finish len cost s).y = s.y := rfl
@[simp] theorem finish_p (len cost : Nat) (s : State) : (finish len cost s).p = s.p := rfl
@[simp] theorem finish_cycles (len cost : Nat) (s : State) : (finish len cost s).cycles = s.cycles + cost := rfl
@[simp] theorem finish_nmiPending (len cost : Nat) (s : State) : (finish len cost s).nmiPending = s.nmiPending := rfl
@[simp] theorem finish_irqPending (len cost : Nat) (s : State) : (finish len cost s).irqPending = s.irqPending := rfl
@[simp] theorem finish_bus (len cost : Nat) (s : State) : (finish len cost s).bus = s.bus := rfl

/-! ### The end of an instruction that assigns PC -/

@[simp] theorem finishAt_pc (target : Addr) (cost : Nat) (s : State) : (finishAt target cost s).pc = target := rfl
@[simp] theorem finishAt_sp (target : Addr) (cost : Nat) (s : State) : (finishAt target cost s).sp = s.sp := rfl
@[simp] theorem finishAt_a (target : Addr) (cost : Nat) (s : State) : (finishAt target cost s).a = s.a := rfl
@[simp] theorem finishAt_x (target : Addr) (cost : Nat) (s : State) : (finishAt target cost s).x = s.x := rfl
@[simp] theorem finishAt_y (target : Addr) (cost : Nat) (s : State) : (finishAt target cost s).y = s.y := rfl
@[simp] theorem finishAt_p (target : Addr) (cost : Nat) (s : State) : (finishAt target cost s).p = s.p := rfl
@[simp] theorem finishAt_cycles (target : Addr) (cost : Nat) (s : State) : (finishAt target cost s).cycles = s.cycles + cost := rfl
@[simp] theorem finishAt_nmiPending (target : Addr) (cost : Nat) (s : State) : (finishAt target cost s).nmiPending = s.nmiPending := rfl
@[simp] theorem finishAt_irqPending (target : Addr) (cost : Nat) (s : State) : (finishAt target cost s).irqPending = s.irqPending := rfl
@[simp] theorem finishAt_bus (target : Addr) (cost : Nat) (s : State) : (finishAt target cost s).bus = s.bus := rfl

/-! ### A bus read -/

@[simp] theorem memRead_value (a : Addr) (s : State) : (memRead a s).1 = s.bus.answer a := rfl
/-! ### The state after a bus read -/

@[simp] theorem memRead_pc (a : Addr) (s : State) : ((memRead a s).2).pc = s.pc := rfl
@[simp] theorem memRead_sp (a : Addr) (s : State) : ((memRead a s).2).sp = s.sp := rfl
@[simp] theorem memRead_a (a : Addr) (s : State) : ((memRead a s).2).a = s.a := rfl
@[simp] theorem memRead_x (a : Addr) (s : State) : ((memRead a s).2).x = s.x := rfl
@[simp] theorem memRead_y (a : Addr) (s : State) : ((memRead a s).2).y = s.y := rfl
@[simp] theorem memRead_p (a : Addr) (s : State) : ((memRead a s).2).p = s.p := rfl
@[simp] theorem memRead_cycles (a : Addr) (s : State) : ((memRead a s).2).cycles = s.cycles := rfl
@[simp] theorem memRead_nmiPending (a : Addr) (s : State) : ((memRead a s).2).nmiPending = s.nmiPending := rfl
@[simp] theorem memRead_irqPending (a : Addr) (s : State) : ((memRead a s).2).irqPending = s.irqPending := rfl
@[simp] theorem memRead_bus (a : Addr) (s : State) : ((memRead a s).2).bus = s.bus.afterRead a := rfl

/-! ### A bus write -/

@[simp] theorem memWrite_pc (a : Addr) (v : Byte) (s : State) : (memWrite a v s).pc = s.pc := rfl
@[simp] theorem memWrite_sp (a : Addr) (v : Byte) (s : State) : (memWrite a v s).sp = s.sp := rfl
@[simp] theorem memWrite_a (a : Addr) (v : Byte) (s : State) : (memWrite a v s).a = s.a := rfl
@[simp] theorem memWrite_x (a : Addr) (v : Byte) (s : State) : (memWrite a v s).x = s.x := rfl
@[simp] theorem memWrite_y (a : Addr) (v : Byte) (s : State) : (memWrite a v s).y = s.y := rfl
@[simp] theorem memWrite_p (a : Addr) (v : Byte) (s : State) : (memWrite a v s).p = s.p := rfl
@[simp] theorem memWrite_cycles (a : Addr) (v : Byte) (s : State) : (memWrite a v s).cycles = s.cycles := rfl
@[simp] theorem memWrite_nmiPending (a : Addr) (v : Byte) (s : State) : (memWrite a v s).nmiPending = s.nmiPending := rfl
@[simp] theorem memWrite_irqPending (a : Addr) (v : Byte) (s : State) : (memWrite a v s).irqPending = s.irqPending := rfl
@[simp] theorem memWrite_bus (a : Addr) (v : Byte) (s : State) : (memWrite a v s).bus = s.bus.write a v := rfl

/-! ### A push -/

@[simp] theorem push_pc (v : Byte) (s : State) : (push v s).pc = s.pc := rfl
@[simp] theorem push_sp (v : Byte) (s : State) : (push v s).sp = s.sp - 1 := rfl
@[simp] theorem push_a (v : Byte) (s : State) : (push v s).a = s.a := rfl
@[simp] theorem push_x (v : Byte) (s : State) : (push v s).x = s.x := rfl
@[simp] theorem push_y (v : Byte) (s : State) : (push v s).y = s.y := rfl
@[simp] theorem push_p (v : Byte) (s : State) : (push v s).p = s.p := rfl
@[simp] theorem push_cycles (v : Byte) (s : State) : (push v s).cycles = s.cycles := rfl
@[simp] theorem push_nmiPending (v : Byte) (s : State) : (push v s).nmiPending = s.nmiPending := rfl
@[simp] theorem push_irqPending (v : Byte) (s : State) : (push v s).irqPending = s.irqPending := rfl
@[simp] theorem push_bus (v : Byte) (s : State) : (push v s).bus = s.bus.write (stackAddr s.sp) v := rfl

/-! ### A pull -/

@[simp] theorem pull_value (s : State) : (pull s).1 = s.bus.answer (stackAddr (s.sp + 1)) := rfl
/-! ### The state after a pull -/

@[simp] theorem pull_pc (s : State) : ((pull s).2).pc = s.pc := rfl
@[simp] theorem pull_sp (s : State) : ((pull s).2).sp = s.sp + 1 := rfl
@[simp] theorem pull_a (s : State) : ((pull s).2).a = s.a := rfl
@[simp] theorem pull_x (s : State) : ((pull s).2).x = s.x := rfl
@[simp] theorem pull_y (s : State) : ((pull s).2).y = s.y := rfl
@[simp] theorem pull_p (s : State) : ((pull s).2).p = s.p := rfl
@[simp] theorem pull_cycles (s : State) : ((pull s).2).cycles = s.cycles := rfl
@[simp] theorem pull_nmiPending (s : State) : ((pull s).2).nmiPending = s.nmiPending := rfl
@[simp] theorem pull_irqPending (s : State) : ((pull s).2).irqPending = s.irqPending := rfl
@[simp] theorem pull_bus (s : State) : ((pull s).2).bus = s.bus.afterRead (stackAddr (s.sp + 1)) := rfl

end Sys2Proof.Machine
end

