-- ==== Sys2Proof/Laws/Flags.lean ====
section
/-! SUPPORT. The flag operations bit by bit, and as the manual's masks over P. -/

namespace Sys2Proof.Machine

/-- Replacing bit `n`: that bit, and every other as it was. -/
theorem setBit_getLsbD (v : Byte) (n k : Nat) (b : Bool) (hn : n < 8) :
    (setBit v n b).getLsbD k = if k = n then b else v.getLsbD k := by
  unfold setBit
  by_cases hk : k = n
  · subst hk
    cases b <;> simp [hn]
  · have hbit : (1#8 <<< n).getLsbD k = false := by
      simp
      omega
    rcases Nat.lt_or_ge k 8 with h8 | h8
    · cases b <;> simp only [Bool.false_eq_true, if_false, if_true, BitVec.getLsbD_or, BitVec.getLsbD_and,
        BitVec.getLsbD_not, hbit, h8, hk] <;> simp
    · rw [BitVec.getLsbD_of_ge _ _ h8, if_neg hk, BitVec.getLsbD_of_ge _ _ h8]

theorem Flag.position_lt (f : Flag) : f.position < 8 := by cases f <;> decide

theorem Flag.position_inj {f g : Flag} (h : f.position = g.position) : f = g := by
  cases f <;> cases g <;> first | rfl | exact absurd h (by decide)

/-- A flag after a flag was written. -/
theorem State.flag_setFlag (f g : Flag) (b : Bool) (s : State) :
    (s.setFlag f b).flag g = if g = f then b else s.flag g := by
  unfold State.flag
  rw [State.setFlag_p, setBit_getLsbD _ _ _ _ f.position_lt]
  by_cases h : g = f
  · simp [h]
  · rw [if_neg h, if_neg (fun hp => h (Flag.position_inj hp))]

/-- A byte read bit by bit. -/
theorem byte_ext {v w : Byte} (h0 : v.getLsbD 0 = w.getLsbD 0) (h1 : v.getLsbD 1 = w.getLsbD 1)
    (h2 : v.getLsbD 2 = w.getLsbD 2) (h3 : v.getLsbD 3 = w.getLsbD 3) (h4 : v.getLsbD 4 = w.getLsbD 4)
    (h5 : v.getLsbD 5 = w.getLsbD 5) (h6 : v.getLsbD 6 = w.getLsbD 6) (h7 : v.getLsbD 7 = w.getLsbD 7) : v = w := by
  apply BitVec.eq_of_getLsbD_eq
  intro i hi
  interval_cases i <;> assumption

theorem setBit_carry (p : Byte) (b : Bool) : setBit p 0 b = withC p b := by
  cases b <;> revert p <;> decide +kernel

theorem setBit_overflow (p : Byte) (b : Bool) : setBit p 6 b = withV p b := by
  cases b <;> revert p <;> decide +kernel

theorem setBit_zero_negative (p v : Byte) : setBit (setBit p 1 (v == 0)) 7 (v.getLsbD 7) = withNZ p v := by
  have h7 : (v &&& 0x80) = if v.getLsbD 7 then 0x80 else 0x00 := by
    revert v
    decide +kernel
  have hmask : ∀ z n : Bool, setBit (setBit p 1 z) 7 n =
      (p &&& 0x7D) ||| (if n then 0x80 else 0x00) ||| (if z then 0x02 else 0x00) := by
    intro z n
    cases z <;> cases n <;> revert p <;> decide +kernel
  unfold withNZ
  rw [h7, hmask]
  simp

/-- `setNZ` as the manual's masks (R27). -/
theorem setNZ_eq (v : Byte) (s : State) : setNZ v s = { s with p := withNZ s.p v } := by
  rw [← setBit_zero_negative]
  rfl

end Sys2Proof.Machine
end

