-- ==== Sys2Proof/Laws/Memory.lean ====
section
/-! SUPPORT. Storage and the bus: a read after a write, the canonical form that every operation keeps, and that
canonical memories which read alike are one list. -/

namespace Sys2Proof.Machine

/-! ### Reading after an operation -/

@[simp] theorem Memory.read_nil (k : Nat) : Memory.read [] k = Config.unlistedByte := rfl

theorem Memory.read_cons (c : Host.Cell) (m : Memory) (k : Nat) :
    Memory.read (c :: m) k = if c.1 = k then c.2 else Memory.read m k := rfl

theorem Memory.erase_cons (c : Host.Cell) (m : Memory) (k : Nat) :
    Memory.erase (c :: m) k = if c.1 = k then Memory.erase m k else c :: Memory.erase m k := by
  unfold Memory.erase
  rw [List.filter_cons]
  by_cases h : c.1 = k <;> simp [h]

theorem Memory.mem_erase {m : Memory} {k : Nat} {c : Host.Cell} : c ∈ Memory.erase m k ↔ c ∈ m ∧ c.1 ≠ k := by
  simp [Memory.erase]

theorem Memory.read_erase (m : Memory) (k k' : Nat) :
    (Memory.erase m k).read k' = if k' = k then Config.unlistedByte else m.read k' := by
  induction m with
  | nil => simp [Memory.erase]
  | cons c m ih =>
    rw [Memory.erase_cons, Memory.read_cons]
    by_cases hc : c.1 = k
    · by_cases hk : k' = k
      · rw [if_pos hc, ih, if_pos hk, if_pos hk]
      · rw [if_pos hc, ih, if_neg hk, if_neg hk, if_neg (fun h => hk (h.symm.trans hc))]
    · rw [if_neg hc, Memory.read_cons, ih]
      by_cases hk : k' = k
      · subst hk
        simp [hc]
      · simp [hk]

theorem Memory.read_insert (m : Memory) (k k' : Nat) (v : Byte) (h : ∀ c ∈ m, c.1 ≠ k) :
    (Memory.insert m k v).read k' = if k' = k then v else m.read k' := by
  induction m with
  | nil => simp [Memory.insert, Memory.read_cons, eq_comm]
  | cons c m ih =>
    have hc : c.1 ≠ k := h c List.mem_cons_self
    unfold Memory.insert
    split
    · rw [Memory.read_cons, ih (fun d hd => h d (List.mem_cons_of_mem _ hd)), Memory.read_cons]
      by_cases hk : k' = k
      · subst hk
        simp [hc]
      · simp [hk]
    · rw [Memory.read_cons]
      by_cases hk : k' = k
      · simp [hk]
      · rw [if_neg (Ne.symm hk), if_neg hk]

/-- A read after a write: the byte at its cell, and every other cell as it was. -/
theorem Memory.read_write (m : Memory) (k k' : Nat) (v : Byte) :
    (Memory.write m k v).read k' = if k' = k then v else m.read k' := by
  unfold Memory.write
  split
  · rename_i hv
    rw [Memory.read_erase, hv]
  · rw [Memory.read_insert _ _ _ _ (fun c hc => (Memory.mem_erase.mp hc).2), Memory.read_erase]
    split <;> simp_all

/-! ### The canonical form -/

theorem Memory.wfFrom_cons {lo : Nat} {c : Host.Cell} {m : Memory} :
    Memory.wfFrom lo (c :: m) = true ↔
      lo ≤ c.1 ∧ c.1 < 0x10000 ∧ c.2 ≠ Config.unlistedByte ∧ Memory.wfFrom (c.1 + 1) m = true := by
  simp [Memory.wfFrom, and_assoc]

theorem Memory.wfFrom_mono {lo lo' : Nat} {m : Memory} (hle : lo ≤ lo') (h : Memory.wfFrom lo' m = true) :
    Memory.wfFrom lo m = true := by
  cases m with
  | nil => rfl
  | cons c m =>
    rw [Memory.wfFrom_cons] at h ⊢
    exact ⟨hle.trans h.1, h.2⟩

theorem Memory.wfFrom_erase {m : Memory} (k : Nat) {lo : Nat} (h : Memory.wfFrom lo m = true) :
    Memory.wfFrom lo (Memory.erase m k) = true := by
  induction m generalizing lo with
  | nil => rfl
  | cons c m ih =>
    rw [Memory.wfFrom_cons] at h
    rw [Memory.erase_cons]
    split
    · exact Memory.wfFrom_mono (by omega) (ih h.2.2.2)
    · exact Memory.wfFrom_cons.mpr ⟨h.1, h.2.1, h.2.2.1, ih h.2.2.2⟩

theorem Memory.wfFrom_insert {m : Memory} {k : Nat} {v : Byte} (hk : k < 0x10000) (hv : v ≠ Config.unlistedByte)
    {lo : Nat} (hlo : lo ≤ k) (hm : ∀ c ∈ m, c.1 ≠ k) (h : Memory.wfFrom lo m = true) :
    Memory.wfFrom lo (Memory.insert m k v) = true := by
  induction m generalizing lo with
  | nil => exact Memory.wfFrom_cons.mpr ⟨hlo, hk, hv, rfl⟩
  | cons c m ih =>
    have hc : c.1 ≠ k := hm c List.mem_cons_self
    have h' := Memory.wfFrom_cons.mp h
    unfold Memory.insert
    split
    · exact Memory.wfFrom_cons.mpr
        ⟨h'.1, h'.2.1, h'.2.2.1, ih (by omega) (fun d hd => hm d (List.mem_cons_of_mem _ hd)) h'.2.2.2⟩
    · refine Memory.wfFrom_cons.mpr ⟨hlo, hk, hv, Memory.wfFrom_cons.mpr ⟨by omega, h'.2⟩⟩

/-- A write keeps the canonical form. -/
theorem Memory.wf_write {m : Memory} {k : Nat} {v : Byte} (hk : k < 0x10000) (h : m.wf = true) :
    (Memory.write m k v).wf = true := by
  unfold Memory.write
  split
  · exact Memory.wfFrom_erase k h
  · rename_i hv
    exact Memory.wfFrom_insert hk hv (Nat.zero_le _) (fun c hc => (Memory.mem_erase.mp hc).2)
      (Memory.wfFrom_erase k h)

/-- So does a run of writes. -/
theorem Memory.wf_writeRun {m : Memory} {k : Nat} {vs : List Byte} (hk : k + vs.length ≤ 0x10000) (h : m.wf = true) :
    (Memory.writeRun m k vs).wf = true := by
  induction vs generalizing m k with
  | nil => exact h
  | cons v vs ih =>
    simp only [List.length_cons] at hk
    exact ih (by omega) (Memory.wf_write (by omega) h)

/-- A run of writes, read back. -/
theorem Memory.read_writeRun (m : Memory) (k k' : Nat) (vs : List Byte) :
    (Memory.writeRun m k vs).read k' = if k ≤ k' then vs.getD (k' - k) (m.read k') else m.read k' := by
  induction vs generalizing m k with
  | nil => simp [Memory.writeRun]
  | cons v vs ih =>
    unfold Memory.writeRun
    rw [ih, Memory.read_write]
    by_cases h : k' = k
    · subst h
      simp
    · by_cases hle : k ≤ k'
      · obtain ⟨n, hn⟩ : ∃ n, k' - k = n + 1 := ⟨k' - k - 1, by omega⟩
        have hn' : k' - (k + 1) = n := by omega
        simp [hle, h, hn, hn', show k + 1 ≤ k' by omega]
      · simp [hle, h, show ¬ k + 1 ≤ k' by omega]

/-! ### One memory, one list -/

theorem Memory.read_below {lo k : Nat} {m : Memory} (h : Memory.wfFrom lo m = true) (hk : k < lo) :
    m.read k = Config.unlistedByte := by
  induction m generalizing lo with
  | nil => rfl
  | cons c m ih =>
    rw [Memory.wfFrom_cons] at h
    rw [Memory.read_cons, if_neg (by omega), ih h.2.2.2 (by omega)]

theorem Memory.ext_from {lo lo' : Nat} {m m' : Memory} (h : Memory.wfFrom lo m = true)
    (h' : Memory.wfFrom lo' m' = true) (hread : ∀ k, m.read k = m'.read k) : m = m' := by
  induction m generalizing lo lo' m' with
  | nil =>
    cases m' with
    | nil => rfl
    | cons d m' =>
      have := hread d.1
      simp only [Memory.read_nil, Memory.read_cons, if_true] at this
      exact absurd this.symm (Memory.wfFrom_cons.mp h').2.2.1
  | cons c m ih =>
    have hc := Memory.wfFrom_cons.mp h
    cases m' with
    | nil =>
      have := hread c.1
      simp only [Memory.read_nil, Memory.read_cons, if_true] at this
      exact absurd this hc.2.2.1
    | cons d m' =>
      have hd := Memory.wfFrom_cons.mp h'
      have hcd : c.1 = d.1 := by
        rcases Nat.lt_trichotomy c.1 d.1 with hlt | heq | hgt
        · have := hread c.1
          rw [Memory.read_cons, if_pos rfl, Memory.read_cons, if_neg (by omega),
            Memory.read_below hd.2.2.2 (by omega)] at this
          exact absurd this hc.2.2.1
        · exact heq
        · have := hread d.1
          rw [Memory.read_cons, if_neg (by omega), Memory.read_cons, if_pos rfl,
            Memory.read_below hc.2.2.2 (by omega)] at this
          exact absurd this.symm hd.2.2.1
      have hv : c.2 = d.2 := by
        have := hread c.1
        rwa [Memory.read_cons, if_pos rfl, Memory.read_cons, if_pos hcd.symm] at this
      have htail : m = m' := by
        refine ih hc.2.2.2 hd.2.2.2 (fun k => ?_)
        by_cases hk : k = c.1
        · rw [Memory.read_below hc.2.2.2 (by omega), Memory.read_below hd.2.2.2 (by omega)]
        · have := hread k
          rwa [Memory.read_cons, if_neg (Ne.symm hk), Memory.read_cons, if_neg (hcd ▸ Ne.symm hk)] at this
      rw [htail, Prod.ext hcd hv]

/-- Canonical memories that read alike at every cell are equal lists. -/
theorem Memory.ext {m m' : Memory} (h : m.wf = true) (h' : m'.wf = true) (hread : ∀ k, m.read k = m'.read k) :
    m = m' := Memory.ext_from h h' hread

/-! ### The bus -/

@[simp] theorem Bus.afterRead_mem (b : Bus) (a : Addr) : (b.afterRead a).mem = b.mem := rfl
@[simp] theorem Bus.afterRead_platform (b : Bus) (a : Addr) : (b.afterRead a).platform = b.platform := rfl
@[simp] theorem Bus.afterRead_prgRebanked (b : Bus) (a : Addr) : (b.afterRead a).prgRebanked = b.prgRebanked := rfl
@[simp] theorem Bus.afterRead_history (b : Bus) (a : Addr) :
    (b.afterRead a).history = .read a (b.answer a) :: b.history := rfl

/-- A read changes no byte of storage. -/
@[simp] theorem Bus.peek_afterRead (b : Bus) (a a' : Addr) : (b.afterRead a).peek a' = b.peek a' := rfl

/-- Where storage answers, a read gets its byte. -/
theorem Bus.answer_of_peek {b : Bus} {a : Addr} {v : Byte} (h : b.peek a = some v) : b.answer a = v := by
  unfold Bus.answer
  rw [h]

/-! ### What the bus decodes an access to -/

@[simp] theorem Platform.decodedAddr_flat (a : Addr) : Platform.flat.decodedAddr a = a := rfl
@[simp] theorem Platform.decodedAddr_anyBus (a : Addr) : Platform.anyBus.decodedAddr a = a := rfl

theorem Platform.decodedAddr_of_not_ppu (pl : Platform) {a : Addr} (h : ¬ (0x2000 ≤ a.toNat ∧ a.toNat < 0x4000)) :
    pl.decodedAddr a = a := by
  cases pl with
  | nes => exact if_neg h
  | flat => rfl
  | anyBus => rfl

/-- The PPU register window is mirrored every 8 bytes (R56). -/
theorem Platform.decodedAddr_ppu_mirror {a a' : Addr} (h : 0x2000 ≤ a.toNat ∧ a.toNat < 0x4000)
    (h' : 0x2000 ≤ a'.toNat ∧ a'.toNat < 0x4000) (hmod : a.toNat % 8 = a'.toNat % 8) :
    Platform.nes.decodedAddr a = Platform.nes.decodedAddr a' := by
  simp only [Platform.decodedAddr, if_pos h, if_pos h', hmod]

/-- A read of one PPU register gets the same byte through every mirror of it (R56). -/
theorem Bus.answer_ppu_mirror {b : Bus} {a a' : Addr} (hb : b.platform = .nes)
    (h : 0x2000 ≤ a.toNat ∧ a.toNat < 0x4000) (h' : 0x2000 ≤ a'.toNat ∧ a'.toNat < 0x4000)
    (hmod : a.toNat % 8 = a'.toNat % 8) : b.answer a = b.answer a' := by
  have hpeek : ∀ c : Addr, 0x2000 ≤ c.toNat ∧ c.toNat < 0x4000 → b.peek c = none := by
    intro c hc
    simp only [Bus.peek, hb, Platform.region, if_neg (Nat.not_lt.mpr hc.1), if_pos (show c.toNat < 0x8000 by omega)]
  simp only [Bus.answer, hpeek a h, hpeek a' h', hb, Platform.decodedAddr_ppu_mirror h h' hmod]

/-- Through which mirror a register was read makes no difference to what the devices have seen. -/
theorem Bus.decodedHistory_afterRead_ppu_mirror {b : Bus} {a a' : Addr} (hb : b.platform = .nes)
    (h : 0x2000 ≤ a.toNat ∧ a.toNat < 0x4000) (h' : 0x2000 ≤ a'.toNat ∧ a'.toNat < 0x4000)
    (hmod : a.toNat % 8 = a'.toNat % 8) : (b.afterRead a).decodedHistory = (b.afterRead a').decodedHistory := by
  simp only [Bus.decodedHistory, Bus.afterRead, List.map_cons, Platform.decodedEvent, hb,
    Platform.decodedAddr_ppu_mirror h h' hmod, Bus.answer_ppu_mirror hb h h' hmod]

@[simp] theorem Bus.write_platform (b : Bus) (a : Addr) (v : Byte) : (b.write a v).platform = b.platform := by
  unfold Bus.write
  split <;> rfl

@[simp] theorem Bus.write_history (b : Bus) (a : Addr) (v : Byte) :
    (b.write a v).history = .write a v :: b.history := by
  unfold Bus.write
  split <;> rfl

/-- Nor does it make a difference through which mirror one was written. -/
theorem Bus.decodedHistory_write_ppu_mirror {b : Bus} {a a' : Addr} (v : Byte) (hb : b.platform = .nes)
    (h : 0x2000 ≤ a.toNat ∧ a.toNat < 0x4000) (h' : 0x2000 ≤ a'.toNat ∧ a'.toNat < 0x4000)
    (hmod : a.toNat % 8 = a'.toNat % 8) : (b.write a v).decodedHistory = (b.write a' v).decodedHistory := by
  simp only [Bus.decodedHistory, Bus.write_history, Bus.write_platform, List.map_cons, Platform.decodedEvent, hb,
    Platform.decodedAddr_ppu_mirror h h' hmod]

/-- A RAM cell is no cell of the program window. -/
theorem Platform.ram_ne_prg {pl : Platform} {w a : Addr} {k k' : Nat} (hw : pl.region w = .ram k)
    (ha : pl.region a = .prg k') : k' ≠ k := by
  cases pl <;> simp only [Platform.region, reduceCtorEq] at hw ha
  split at hw
  · split at ha
    · cases ha
    · split at ha <;> cases ha
      cases hw
      omega
  · split at hw <;> cases hw

/-- A write changes nothing that storage answers but at the addresses it touches. -/
theorem Bus.peek_write_of_not_touches {b : Bus} {w a : Addr} (v : Byte) (h : b.platform.touches w a = false) :
    (b.write w v).peek a = b.peek a := by
  unfold Platform.touches at h
  unfold Bus.write Bus.peek
  rcases hw : b.platform.region w with k | k | _ <;> rcases ha : b.platform.region a with k' | k' | _ <;>
    simp only [hw, ha, beq_eq_false_iff_ne, reduceCtorEq] at h ⊢
  · rw [Memory.read_write, if_neg (Ne.symm h)]
  · rw [Memory.read_write, if_neg (Platform.ram_ne_prg hw ha)]

/-- A write to RAM is what storage answers at every address of its cell. -/
theorem Bus.peek_write_ram {b : Bus} {w a : Addr} {k : Nat} (v : Byte) (hw : b.platform.region w = .ram k)
    (ha : b.platform.region a = .ram k) : (b.write w v).peek a = some v := by
  unfold Bus.write Bus.peek
  simp [hw, ha, Memory.read_write]

/-- The cell behind an address is below 65536. -/
theorem Platform.region_ram_lt {pl : Platform} {a : Addr} {k : Nat} (h : pl.region a = .ram k) : k < 0x10000 := by
  have := a.isLt
  unfold Platform.region at h
  split at h
  · split at h
    · cases h; omega
    · split at h <;> cases h
  · cases h; omega
  · cases h

/-- A bus write keeps storage canonical. -/
theorem Bus.wf_write {b : Bus} (a : Addr) (v : Byte) (h : b.mem.wf = true) : (b.write a v).mem.wf = true := by
  unfold Bus.write
  split
  · exact Memory.wf_write (Platform.region_ram_lt ‹_›) h
  · exact h
  · exact h

end Sys2Proof.Machine
end

