-- ==== Sys2Proof/Laws/Ops.lean ====
section
/-! SUPPORT. What each shared operation can do, said once: the states that differ by reads alone, the address modes,
the stack, taking an exception and returning from one. -/

namespace Sys2Proof.Machine

/-- `t` is `s` after some bus reads: nothing but the record of accesses differs. -/
def ReadsOf (s t : State) : Prop :=
  ∃ new : List BusEvent, (∀ e ∈ new, ∃ a v, e = .read a v) ∧
    t = { s with bus := { s.bus with history := new ++ s.bus.history } }

theorem ReadsOf.refl (s : State) : ReadsOf s s := ⟨[], by simp, rfl⟩

theorem ReadsOf.memRead {s t : State} (h : ReadsOf s t) (a : Addr) : ReadsOf s (memRead a t).2 := by
  obtain ⟨new, hnew, rfl⟩ := h
  exact ⟨_ :: new, by
    intro e he
    rcases List.mem_cons.mp he with rfl | he
    · exact ⟨_, _, rfl⟩
    · exact hnew e he, rfl⟩

theorem ReadsOf.sameStorage {s t : State} (h : ReadsOf s t) : SameStorage s t := by
  obtain ⟨new, _, rfl⟩ := h
  exact ⟨rfl, fun _ => rfl⟩

theorem ReadsOf.onlyReads {s t : State} (h : ReadsOf s t) : OnlyReads s t := by
  obtain ⟨new, hnew, rfl⟩ := h
  exact ⟨new, rfl, hnew⟩

/-- The registers, flags, counters and storage of a state after reads. -/
theorem ReadsOf.fields {s t : State} (h : ReadsOf s t) :
    t.pc = s.pc ∧ t.sp = s.sp ∧ t.a = s.a ∧ t.x = s.x ∧ t.y = s.y ∧ t.p = s.p ∧ t.cycles = s.cycles ∧
      t.nmiPending = s.nmiPending ∧ t.irqPending = s.irqPending ∧ t.bus.mem = s.bus.mem ∧
      t.bus.platform = s.bus.platform ∧ t.bus.prgRebanked = s.bus.prgRebanked := by
  obtain ⟨new, _, rfl⟩ := h
  simp

/-- A state after reads is the state with another bus. -/
theorem ReadsOf.eq_with {s t : State} (h : ReadsOf s t) : t = { s with bus := t.bus } := by
  obtain ⟨new, _, rfl⟩ := h
  rfl

/-! ### Address modes -/

theorem readZeroPagePointer_reads (z : Byte) (s : State) : ReadsOf s (readZeroPagePointer z s).2 :=
  ((ReadsOf.refl s).memRead _).memRead _

theorem locate_reads (m : MemMode) (s : State) : ReadsOf s (locate m s).st := by
  cases m with
  | indx b => exact readZeroPagePointer_reads _ s
  | indy b => exact readZeroPagePointer_reads _ s
  | _ => exact ReadsOf.refl s

theorem readMem_reads (m : MemMode) (s : State) : ReadsOf s (readMem m s).st := (locate_reads m s).memRead _

theorem readOperand_reads (m : ReadMode) (s : State) : ReadsOf s (readOperand m s).st := by
  cases m with
  | imm v => exact ReadsOf.refl s
  | mem m => exact readMem_reads m s

theorem differentPage_iff (v w : Addr) : differentPage v w = true ↔ v &&& 0xFF00 ≠ w &&& 0xFF00 := by
  unfold differentPage highByte
  rw [bne_iff_ne, ne_eq, ne_eq, not_iff_not]
  constructor
  · intro h
    apply BitVec.eq_of_getLsbD_eq
    intro i hi
    by_cases h8 : i < 8
    · interval_cases i <;> simp
    · have := congrArg (fun b => b.getLsbD (i - 8)) h
      simp only [BitVec.getLsbD_extractLsb', show 8 + (i - 8) = i by omega, show i - 8 < 8 by omega, decide_true,
        Bool.true_and] at this
      simp only [BitVec.getLsbD_and, this]
  · intro h
    apply BitVec.eq_of_getLsbD_eq
    intro i hi
    have := congrArg (fun b => b.getLsbD (8 + i)) h
    simp only [BitVec.getLsbD_and] at this
    have hmask : (0xFF00 : Addr).getLsbD (8 + i) = true := by interval_cases i <;> rfl
    simp only [hmask, Bool.and_true] at this
    simpa [BitVec.getLsbD_extractLsb', hi] using this

/-! ### The stack -/

theorem stackAddr_eq (sp : Byte) : stackAddr sp = stackByte sp := by
  revert sp
  decide +kernel

theorem Platform.region_stackByte {pl : Platform} (h : pl ≠ .anyBus) (sp : Byte) :
    pl.region (stackByte sp) = .ram (0x100 + sp.toNat) := by
  cases pl with
  | anyBus => exact absurd rfl h
  | nes => revert sp; decide +kernel
  | flat => revert sp; decide +kernel

/-- A stack byte just written is what a read gets there, whatever else the stack page has taken since elsewhere. -/
theorem Bus.peek_write_stack {b : Bus} (h : b.platform ≠ .anyBus) (sp sp' : Byte) (v : Byte) :
    (b.write (stackByte sp) v).peek (stackByte sp') = if sp' = sp then some v else b.peek (stackByte sp') := by
  split
  · rename_i he
    subst he
    exact Bus.peek_write_ram v (Platform.region_stackByte h _) (Platform.region_stackByte h _)
  · rename_i hne
    apply Bus.peek_write_of_not_touches
    unfold Platform.touches
    rw [Platform.region_stackByte h, Platform.region_stackByte h]
    have : sp.toNat ≠ sp'.toNat := fun he => hne (BitVec.eq_of_toNat_eq he.symm)
    simp [this]

/-! ### Exceptions -/

theorem setBit_interruptDisable (p : Byte) : setBit p 2 true = p ||| 0x04 := rfl

/-- Taking an exception, in the manual's own terms (R216, R181). -/
theorem takeException_eq (vec ret : Addr) (b : Bool) (s : State) :
    takeException vec ret b s = entered vec ret (pushImage s.p b) s := by
  have h3 : s.sp - 2 - 1 = s.sp - 3 := by bv_omega
  have h2 : s.sp - 1 - 1 = s.sp - 2 := by bv_omega
  unfold takeException entered
  simp only [push16, push, memWrite, read16, memRead, finishAt, State.setFlag, Flag.position, setBit_interruptDisable,
    stackAddr_eq, highByte_eq, lowByte_eq, h2, h3, joinBytes]

end Sys2Proof.Machine
end

