-- ==== Sys2Proof/Laws/PerInstr.lean ====
section
/-! SUPPORT. One lemma per instruction: the encoder gives as many bytes as the instruction is long (30_encoding.md
R70, R71). -/

namespace Sys2Proof.Laws.EncodeLength

/-- The bytes of a well-formed instruction number its length. -/
def Statement (i : Instr) : Prop := i.wf = true → (encode i).length = i.length

/-- Close a memory mode: either its opcode exists, or the mode is not well formed. -/
theorem of_mode {i : Instr} (h : (encode i).length = i.length ∨ i.wf = false) : Statement i := by
  intro hw
  rcases h with h | h
  · exact h
  · rw [h] at hw
    cases hw

theorem lda (m : ReadMode) : Statement (.lda m) := by
  apply of_mode
  cases m with
  | imm v => exact .inl rfl
  | mem m => cases m <;> first | exact .inl rfl | exact .inr rfl

theorem ldx (m : ReadMode) : Statement (.ldx m) := by
  apply of_mode
  cases m with
  | imm v => exact .inl rfl
  | mem m => cases m <;> first | exact .inl rfl | exact .inr rfl

theorem ldy (m : ReadMode) : Statement (.ldy m) := by
  apply of_mode
  cases m with
  | imm v => exact .inl rfl
  | mem m => cases m <;> first | exact .inl rfl | exact .inr rfl

theorem sta (m : MemMode) : Statement (.sta m) := by
  apply of_mode
  cases m <;> first | exact .inl rfl | exact .inr rfl

theorem stx (m : MemMode) : Statement (.stx m) := by
  apply of_mode
  cases m <;> first | exact .inl rfl | exact .inr rfl

theorem sty (m : MemMode) : Statement (.sty m) := by
  apply of_mode
  cases m <;> first | exact .inl rfl | exact .inr rfl

theorem tax : Statement .tax := fun _ => rfl

theorem tay : Statement .tay := fun _ => rfl

theorem tsx : Statement .tsx := fun _ => rfl

theorem txa : Statement .txa := fun _ => rfl

theorem txs : Statement .txs := fun _ => rfl

theorem tya : Statement .tya := fun _ => rfl

theorem pha : Statement .pha := fun _ => rfl

theorem php : Statement .php := fun _ => rfl

theorem pla : Statement .pla := fun _ => rfl

theorem plp : Statement .plp := fun _ => rfl

theorem adc (m : ReadMode) : Statement (.adc m) := by
  apply of_mode
  cases m with
  | imm v => exact .inl rfl
  | mem m => cases m <;> first | exact .inl rfl | exact .inr rfl

theorem sbc (m : ReadMode) : Statement (.sbc m) := by
  apply of_mode
  cases m with
  | imm v => exact .inl rfl
  | mem m => cases m <;> first | exact .inl rfl | exact .inr rfl

theorem and (m : ReadMode) : Statement (.and m) := by
  apply of_mode
  cases m with
  | imm v => exact .inl rfl
  | mem m => cases m <;> first | exact .inl rfl | exact .inr rfl

theorem ora (m : ReadMode) : Statement (.ora m) := by
  apply of_mode
  cases m with
  | imm v => exact .inl rfl
  | mem m => cases m <;> first | exact .inl rfl | exact .inr rfl

theorem eor (m : ReadMode) : Statement (.eor m) := by
  apply of_mode
  cases m with
  | imm v => exact .inl rfl
  | mem m => cases m <;> first | exact .inl rfl | exact .inr rfl

theorem cmp (m : ReadMode) : Statement (.cmp m) := by
  apply of_mode
  cases m with
  | imm v => exact .inl rfl
  | mem m => cases m <;> first | exact .inl rfl | exact .inr rfl

theorem bit (m : MemMode) : Statement (.bit m) := by
  apply of_mode
  cases m <;> first | exact .inl rfl | exact .inr rfl

theorem cpx (m : ReadMode) : Statement (.cpx m) := by
  apply of_mode
  cases m with
  | imm v => exact .inl rfl
  | mem m => cases m <;> first | exact .inl rfl | exact .inr rfl

theorem cpy (m : ReadMode) : Statement (.cpy m) := by
  apply of_mode
  cases m with
  | imm v => exact .inl rfl
  | mem m => cases m <;> first | exact .inl rfl | exact .inr rfl

theorem inc (m : MemMode) : Statement (.inc m) := by
  apply of_mode
  cases m <;> first | exact .inl rfl | exact .inr rfl

theorem dec (m : MemMode) : Statement (.dec m) := by
  apply of_mode
  cases m <;> first | exact .inl rfl | exact .inr rfl

theorem inx : Statement .inx := fun _ => rfl

theorem iny : Statement .iny := fun _ => rfl

theorem dex : Statement .dex := fun _ => rfl

theorem dey : Statement .dey := fun _ => rfl

theorem asl (m : ShiftMode) : Statement (.asl m) := by
  apply of_mode
  cases m with
  | acc => exact .inl rfl
  | mem m => cases m <;> first | exact .inl rfl | exact .inr rfl

theorem lsr (m : ShiftMode) : Statement (.lsr m) := by
  apply of_mode
  cases m with
  | acc => exact .inl rfl
  | mem m => cases m <;> first | exact .inl rfl | exact .inr rfl

theorem rol (m : ShiftMode) : Statement (.rol m) := by
  apply of_mode
  cases m with
  | acc => exact .inl rfl
  | mem m => cases m <;> first | exact .inl rfl | exact .inr rfl

theorem ror (m : ShiftMode) : Statement (.ror m) := by
  apply of_mode
  cases m with
  | acc => exact .inl rfl
  | mem m => cases m <;> first | exact .inl rfl | exact .inr rfl

theorem jmp (m : JumpMode) : Statement (.jmp m) := by
  cases m <;> exact fun _ => rfl

theorem jsr (w : Addr) : Statement (.jsr w) := fun _ => rfl

theorem rts : Statement .rts := fun _ => rfl

theorem bpl (off : Byte) : Statement (.bpl off) := fun _ => rfl

theorem bmi (off : Byte) : Statement (.bmi off) := fun _ => rfl

theorem bvc (off : Byte) : Statement (.bvc off) := fun _ => rfl

theorem bvs (off : Byte) : Statement (.bvs off) := fun _ => rfl

theorem bcc (off : Byte) : Statement (.bcc off) := fun _ => rfl

theorem bcs (off : Byte) : Statement (.bcs off) := fun _ => rfl

theorem bne (off : Byte) : Statement (.bne off) := fun _ => rfl

theorem beq (off : Byte) : Statement (.beq off) := fun _ => rfl

theorem brk : Statement .brk := fun _ => rfl

theorem rti : Statement .rti := fun _ => rfl

theorem clc : Statement .clc := fun _ => rfl

theorem sec : Statement .sec := fun _ => rfl

theorem cli : Statement .cli := fun _ => rfl

theorem sei : Statement .sei := fun _ => rfl

theorem clv : Statement .clv := fun _ => rfl

theorem cld : Statement .cld := fun _ => rfl

theorem sed : Statement .sed := fun _ => rfl

theorem nop : Statement .nop := fun _ => rfl

theorem unofficial (op : Byte) : Statement (.unofficial op) := fun _ => rfl

end Sys2Proof.Laws.EncodeLength
end

