-- ==== Sys2Proof/Laws/Shapes.lean ====
section
/-! SUPPORT. The shapes that instructions share, each as one next state written over the state before: which fields an
instruction of that shape can change is read off the record update. -/

namespace Sys2Proof.Machine

/-- The state after locating an operand is the state with another bus. -/
theorem locate_st (m : MemMode) (s : State) : (locate m s).st = { s with bus := (locate m s).st.bus } :=
  (locate_reads m s).eq_with

/-- The same, for rewriting. -/
theorem exists_locate_st (m : MemMode) (s : State) : ∃ b, (locate m s).st = { s with bus := b } := ⟨_, locate_st m s⟩

/-- So is the state after reading an operand. -/
theorem readOperand_st (m : ReadMode) (s : State) : (readOperand m s).st = { s with bus := (readOperand m s).st.bus } :=
  (readOperand_reads m s).eq_with

theorem withOperand_eq (m : ReadMode) (f : Byte → State → State) (s : State) :
    withOperand m f s = .next (finish m.length (readCost m (readOperand m s).pageCrossed)
      (f (readOperand m s).value { s with bus := (readOperand m s).st.bus })) := by
  rw [← readOperand_st]
  rfl

theorem loadReg_eq (r : Reg) (m : ReadMode) (s : State) :
    loadReg r m s = .next { s.setReg r (readOperand m s).value with
      p := withNZ s.p (readOperand m s).value
      bus := (readOperand m s).st.bus
      pc := s.pc + BitVec.ofNat 16 m.length
      cycles := s.cycles + readCost m (readOperand m s).pageCrossed } := by
  rw [loadReg, withOperand_eq]
  cases r <;> simp only [setNZ_eq, State.setReg, finish]

theorem compareReg_eq (r : Reg) (m : ReadMode) (s : State) :
    compareReg r m s = .next { s with
      p := comparedP s.p (s.getReg r) (readOperand m s).value
      bus := (readOperand m s).st.bus
      pc := s.pc + BitVec.ofNat 16 m.length
      cycles := s.cycles + readCost m (readOperand m s).pageCrossed } := by
  rw [compareReg, withOperand_eq]
  cases r <;>
    simp only [compareFlags, comparedP, setNZ_eq, State.setFlag, Flag.position, setBit_carry, State.getReg, finish] <;>
    rfl

theorem logicA_eq (f : Byte → Byte → Byte) (m : ReadMode) (s : State) :
    logicA f m s = .next { s with
      a := f s.a (readOperand m s).value
      p := withNZ s.p (f s.a (readOperand m s).value)
      bus := (readOperand m s).st.bus
      pc := s.pc + BitVec.ofNat 16 m.length
      cycles := s.cycles + readCost m (readOperand m s).pageCrossed } := by
  rw [logicA, withOperand_eq]
  simp only [setNZ_eq, finish]

theorem storeReg_eq (r : Reg) (m : MemMode) (s : State) :
    storeReg r m s = .next { s with
      bus := (locate m s).st.bus.write (locate m s).ea (s.getReg r)
      pc := s.pc + BitVec.ofNat 16 (1 + m.operandLength)
      cycles := s.cycles + storeCost m } := by
  obtain ⟨b, hb⟩ := exists_locate_st m s
  cases r <;> simp only [storeReg, hb, memWrite, State.getReg, finish]

theorem modifyMem_eq (f : Byte → Byte) (m : MemMode) (s : State) :
    modifyMem f m s = .next { s with
      p := withNZ s.p (f ((locate m s).st.bus.answer (locate m s).ea))
      bus := ((locate m s).st.bus.afterRead (locate m s).ea).write (locate m s).ea
        (f ((locate m s).st.bus.answer (locate m s).ea))
      pc := s.pc + BitVec.ofNat 16 (1 + m.operandLength)
      cycles := s.cycles + modifyCost m } := by
  obtain ⟨b, hb⟩ := exists_locate_st m s
  simp only [modifyMem, hb, memWrite, memRead, setNZ_eq, finish]

theorem shift_acc_eq (f : Byte → Bool → Shifted) (s : State) :
    shift f .acc s = .next { s with
      a := (f s.a (s.flag .carry)).1
      p := withNZ (withC s.p (f s.a (s.flag .carry)).2) (f s.a (s.flag .carry)).1
      pc := s.pc + 1
      cycles := s.cycles + 2 } := by
  simp only [shift, setNZ_eq, State.setFlag, Flag.position, setBit_carry, finish]
  rfl

theorem shift_mem_eq (f : Byte → Bool → Shifted) (m : MemMode) (s : State) :
    shift f (.mem m) s = .next
      (let r := f ((locate m s).st.bus.answer (locate m s).ea) (s.flag .carry)
       { s with
          p := withNZ (withC s.p r.2) r.1
          bus := ((locate m s).st.bus.afterRead (locate m s).ea).write (locate m s).ea r.1
          pc := s.pc + BitVec.ofNat 16 (1 + m.operandLength)
          cycles := s.cycles + modifyCost m }) := by
  obtain ⟨b, hb⟩ := exists_locate_st m s
  simp only [shift, hb, memWrite, memRead, setNZ_eq, State.setFlag, Flag.position, setBit_carry, finish]

/-- Returning from an exception: three reads at the stack, and P, PC and SP from them. -/
theorem returnFromException_eq (s : State) :
    returnFromException s =
      (let b1 := s.bus.afterRead (stackByte (s.sp + 1))
       let b2 := b1.afterRead (stackByte (s.sp + 2))
       { s with
          p := pullImage (s.bus.answer (stackByte (s.sp + 1))) s.p
          pc := joinBytes (b2.answer (stackByte (s.sp + 3))) (b1.answer (stackByte (s.sp + 2)))
          sp := s.sp + 3
          bus := b2.afterRead (stackByte (s.sp + 3)) }) := by
  have h2 : s.sp + 1 + 1 = s.sp + 2 := by bv_omega
  have h3 : s.sp + 2 + 1 = s.sp + 3 := by bv_omega
  simp only [returnFromException, pull16, pull, memRead, stackAddr_eq, h2, h3]

/-- Fetching an instruction only reads. -/
theorem fetch_reads (s : State) : ReadsOf s (fetch s).2 := by
  unfold fetch
  dsimp only
  split
  · exact (ReadsOf.refl s).memRead _
  · exact ((ReadsOf.refl s).memRead _).memRead _
  · exact (((ReadsOf.refl s).memRead _).memRead _).memRead _

end Sys2Proof.Machine
end

