-- ==== Sys2Proof/Tests/Slice0.lean ====
section
/-! SUPPORT. Tests of the model, each expected value from spec/, and for every obligation with hypotheses a witness
that meets them. -/

namespace Sys2Proof.Machine.Tests

set_option Elab.async false

/-! ### Well-formedness: each check refuses an ill-formed term -/

theorem test_wf_alu_modes : (Instr.lda (.mem (.zpy 0))).wf = false ∧ (Instr.adc (.mem (.zpy 0))).wf = false ∧
    (Instr.sbc (.mem (.zpy 0))).wf = false ∧ (Instr.and (.mem (.zpy 0))).wf = false ∧
    (Instr.ora (.mem (.zpy 0))).wf = false ∧ (Instr.eor (.mem (.zpy 0))).wf = false ∧
    (Instr.cmp (.mem (.zpy 0))).wf = false ∧ (Instr.sta (.zpy 0)).wf = false := by decide

theorem test_wf_modify_modes : (Instr.inc (.absy 0)).wf = false ∧ (Instr.dec (.indx 0)).wf = false ∧
    (Instr.ldy (.mem (.zpy 0))).wf = false ∧ (Instr.ldy (.mem (.indy 0))).wf = false := by decide

theorem test_wf_shift_modes : (Instr.asl (.mem (.zpy 0))).wf = false ∧ (Instr.lsr (.mem (.absy 0))).wf = false ∧
    (Instr.rol (.mem (.indx 0))).wf = false ∧ (Instr.ror (.mem (.indy 0))).wf = false := by decide

theorem test_wf_ldx_modes : (Instr.ldx (.mem (.zpx 0))).wf = false ∧ (Instr.ldx (.mem (.absx 0))).wf = false ∧
    (Instr.ldx (.mem (.indx 0))).wf = false := by decide

theorem test_wf_stx_modes : (Instr.stx (.zpx 0)).wf = false ∧ (Instr.stx (.absy 0)).wf = false := by decide

theorem test_wf_sty_modes : (Instr.sty (.zpy 0)).wf = false ∧ (Instr.sty (.absx 0)).wf = false := by decide

theorem test_wf_plain_modes : (Instr.bit (.zpx 0)).wf = false ∧ (Instr.cpx (.mem (.absx 0))).wf = false ∧
    (Instr.cpy (.mem (.indy 0))).wf = false := by decide

theorem test_wf_unofficial : (Instr.unofficial 0xEA).wf = false ∧ (Instr.unofficial 0x00).wf = false ∧
    (Instr.unofficial 0xFF).wf = true := by decide

/-! ### Decoding: every official opcode of the map R85, with the bytes 0x34 and 0x12 after it -/

/-- Each row's bytes decode to its instruction with nothing left over, and the instruction encodes to them. -/
def readsAs (rows : List (List Byte × Instr)) : Bool :=
  rows.all fun r => decodesTo r.1 r.2 && decide (encode r.2 = r.1)
where
  decodesTo (bytes : List Byte) (i : Instr) : Bool :=
    match decode bytes with
    | .ok (j, rest) => decide (j = i) && rest.isEmpty
    | .error _ => false

theorem test_decode_brk_bpl_jsr_bmi_rti_jmp_bvc_rts_bvs : readsAs
  [([0x00], .brk), ([0x10, 0x34], .bpl 0x34), ([0x20, 0x34, 0x12], .jsr 0x1234),
   ([0x30, 0x34], .bmi 0x34), ([0x40], .rti), ([0x4C, 0x34, 0x12], .jmp (.abs 0x1234)),
   ([0x6C, 0x34, 0x12], .jmp (.ind 0x1234)), ([0x50, 0x34], .bvc 0x34), ([0x60], .rts),
   ([0x70, 0x34], .bvs 0x34)] = true := by decide +kernel

theorem test_decode_bcc_bcs_bne_beq : readsAs
  [([0x90, 0x34], .bcc 0x34), ([0xB0, 0x34], .bcs 0x34), ([0xD0, 0x34], .bne 0x34),
   ([0xF0, 0x34], .beq 0x34)] = true := by decide +kernel

theorem test_decode_ora : readsAs
  [([0x01, 0x34], .ora (.mem (.indx 0x34))), ([0x05, 0x34], .ora (.mem (.zp 0x34))), ([0x09, 0x34], .ora (.imm 0x34)),
   ([0x0D, 0x34, 0x12], .ora (.mem (.abs 0x1234))), ([0x11, 0x34], .ora (.mem (.indy 0x34))), ([0x15, 0x34], .ora (.mem (.zpx 0x34))),
   ([0x19, 0x34, 0x12], .ora (.mem (.absy 0x1234))), ([0x1D, 0x34, 0x12], .ora (.mem (.absx 0x1234)))] = true := by decide +kernel

theorem test_decode_and_bit : readsAs
  [([0x21, 0x34], .and (.mem (.indx 0x34))), ([0x25, 0x34], .and (.mem (.zp 0x34))), ([0x29, 0x34], .and (.imm 0x34)),
   ([0x2D, 0x34, 0x12], .and (.mem (.abs 0x1234))), ([0x31, 0x34], .and (.mem (.indy 0x34))), ([0x35, 0x34], .and (.mem (.zpx 0x34))),
   ([0x39, 0x34, 0x12], .and (.mem (.absy 0x1234))), ([0x3D, 0x34, 0x12], .and (.mem (.absx 0x1234))), ([0x24, 0x34], .bit (.zp 0x34)),
   ([0x2C, 0x34, 0x12], .bit (.abs 0x1234))] = true := by decide +kernel

theorem test_decode_eor : readsAs
  [([0x41, 0x34], .eor (.mem (.indx 0x34))), ([0x45, 0x34], .eor (.mem (.zp 0x34))), ([0x49, 0x34], .eor (.imm 0x34)),
   ([0x4D, 0x34, 0x12], .eor (.mem (.abs 0x1234))), ([0x51, 0x34], .eor (.mem (.indy 0x34))), ([0x55, 0x34], .eor (.mem (.zpx 0x34))),
   ([0x59, 0x34, 0x12], .eor (.mem (.absy 0x1234))), ([0x5D, 0x34, 0x12], .eor (.mem (.absx 0x1234)))] = true := by decide +kernel

theorem test_decode_adc_dey : readsAs
  [([0x61, 0x34], .adc (.mem (.indx 0x34))), ([0x65, 0x34], .adc (.mem (.zp 0x34))), ([0x69, 0x34], .adc (.imm 0x34)),
   ([0x6D, 0x34, 0x12], .adc (.mem (.abs 0x1234))), ([0x71, 0x34], .adc (.mem (.indy 0x34))), ([0x75, 0x34], .adc (.mem (.zpx 0x34))),
   ([0x79, 0x34, 0x12], .adc (.mem (.absy 0x1234))), ([0x7D, 0x34, 0x12], .adc (.mem (.absx 0x1234))), ([0x88], .dey)] = true := by decide +kernel

theorem test_decode_cpy : readsAs
  [([0xC0, 0x34], .cpy (.imm 0x34)), ([0xC4, 0x34], .cpy (.mem (.zp 0x34))), ([0xCC, 0x34, 0x12], .cpy (.mem (.abs 0x1234)))] = true := by decide +kernel

theorem test_decode_cmp : readsAs
  [([0xC1, 0x34], .cmp (.mem (.indx 0x34))), ([0xC5, 0x34], .cmp (.mem (.zp 0x34))), ([0xC9, 0x34], .cmp (.imm 0x34)),
   ([0xCD, 0x34, 0x12], .cmp (.mem (.abs 0x1234))), ([0xD1, 0x34], .cmp (.mem (.indy 0x34))), ([0xD5, 0x34], .cmp (.mem (.zpx 0x34))),
   ([0xD9, 0x34, 0x12], .cmp (.mem (.absy 0x1234))), ([0xDD, 0x34, 0x12], .cmp (.mem (.absx 0x1234)))] = true := by decide +kernel

theorem test_decode_dec_iny_dex_cpx : readsAs
  [([0xC6, 0x34], .dec (.zp 0x34)), ([0xCE, 0x34, 0x12], .dec (.abs 0x1234)), ([0xD6, 0x34], .dec (.zpx 0x34)),
   ([0xDE, 0x34, 0x12], .dec (.absx 0x1234)), ([0xC8], .iny), ([0xCA], .dex),
   ([0xE0, 0x34], .cpx (.imm 0x34)), ([0xE4, 0x34], .cpx (.mem (.zp 0x34))), ([0xEC, 0x34, 0x12], .cpx (.mem (.abs 0x1234)))] = true := by decide +kernel

theorem test_decode_sbc : readsAs
  [([0xE1, 0x34], .sbc (.mem (.indx 0x34))), ([0xE5, 0x34], .sbc (.mem (.zp 0x34))), ([0xE9, 0x34], .sbc (.imm 0x34)),
   ([0xED, 0x34, 0x12], .sbc (.mem (.abs 0x1234))), ([0xF1, 0x34], .sbc (.mem (.indy 0x34))), ([0xF5, 0x34], .sbc (.mem (.zpx 0x34))),
   ([0xF9, 0x34, 0x12], .sbc (.mem (.absy 0x1234))), ([0xFD, 0x34, 0x12], .sbc (.mem (.absx 0x1234)))] = true := by decide +kernel

theorem test_decode_inc_inx : readsAs
  [([0xE6, 0x34], .inc (.zp 0x34)), ([0xEE, 0x34, 0x12], .inc (.abs 0x1234)), ([0xF6, 0x34], .inc (.zpx 0x34)),
   ([0xFE, 0x34, 0x12], .inc (.absx 0x1234)), ([0xE8], .inx)] = true := by decide +kernel

theorem test_decode_asl_rol : readsAs
  [([0x06, 0x34], .asl (.mem (.zp 0x34))), ([0x0A], .asl .acc), ([0x0E, 0x34, 0x12], .asl (.mem (.abs 0x1234))),
   ([0x16, 0x34], .asl (.mem (.zpx 0x34))), ([0x1E, 0x34, 0x12], .asl (.mem (.absx 0x1234))), ([0x26, 0x34], .rol (.mem (.zp 0x34))),
   ([0x2A], .rol .acc), ([0x2E, 0x34, 0x12], .rol (.mem (.abs 0x1234))), ([0x36, 0x34], .rol (.mem (.zpx 0x34))),
   ([0x3E, 0x34, 0x12], .rol (.mem (.absx 0x1234)))] = true := by decide +kernel

theorem test_decode_lsr_ror : readsAs
  [([0x46, 0x34], .lsr (.mem (.zp 0x34))), ([0x4A], .lsr .acc), ([0x4E, 0x34, 0x12], .lsr (.mem (.abs 0x1234))),
   ([0x56, 0x34], .lsr (.mem (.zpx 0x34))), ([0x5E, 0x34, 0x12], .lsr (.mem (.absx 0x1234))), ([0x66, 0x34], .ror (.mem (.zp 0x34))),
   ([0x6A], .ror .acc), ([0x6E, 0x34, 0x12], .ror (.mem (.abs 0x1234))), ([0x76, 0x34], .ror (.mem (.zpx 0x34))),
   ([0x7E, 0x34, 0x12], .ror (.mem (.absx 0x1234)))] = true := by decide +kernel

theorem test_decode_php_plp_pha_pla : readsAs
  [([0x08], .php), ([0x28], .plp), ([0x48], .pha),
   ([0x68], .pla)] = true := by decide +kernel

theorem test_decode_clc_sec_cli_sei_clv_cld_nop_sed : readsAs
  [([0x18], .clc), ([0x38], .sec), ([0x58], .cli),
   ([0x78], .sei), ([0xB8], .clv), ([0xD8], .cld),
   ([0xEA], .nop), ([0xF8], .sed)] = true := by decide +kernel

theorem test_decode_sta_sty : readsAs
  [([0x81, 0x34], .sta (.indx 0x34)), ([0x85, 0x34], .sta (.zp 0x34)), ([0x8D, 0x34, 0x12], .sta (.abs 0x1234)),
   ([0x91, 0x34], .sta (.indy 0x34)), ([0x95, 0x34], .sta (.zpx 0x34)), ([0x99, 0x34, 0x12], .sta (.absy 0x1234)),
   ([0x9D, 0x34, 0x12], .sta (.absx 0x1234)), ([0x84, 0x34], .sty (.zp 0x34)), ([0x8C, 0x34, 0x12], .sty (.abs 0x1234)),
   ([0x94, 0x34], .sty (.zpx 0x34))] = true := by decide +kernel

theorem test_decode_stx_txa_tya_txs : readsAs
  [([0x86, 0x34], .stx (.zp 0x34)), ([0x8E, 0x34, 0x12], .stx (.abs 0x1234)), ([0x96, 0x34], .stx (.zpy 0x34)),
   ([0x8A], .txa), ([0x98], .tya), ([0x9A], .txs)] = true := by decide +kernel

theorem test_decode_ldy : readsAs
  [([0xA0, 0x34], .ldy (.imm 0x34)), ([0xA4, 0x34], .ldy (.mem (.zp 0x34))), ([0xAC, 0x34, 0x12], .ldy (.mem (.abs 0x1234))),
   ([0xB4, 0x34], .ldy (.mem (.zpx 0x34))), ([0xBC, 0x34, 0x12], .ldy (.mem (.absx 0x1234)))] = true := by decide +kernel

theorem test_decode_lda : readsAs
  [([0xA1, 0x34], .lda (.mem (.indx 0x34))), ([0xA5, 0x34], .lda (.mem (.zp 0x34))), ([0xA9, 0x34], .lda (.imm 0x34)),
   ([0xAD, 0x34, 0x12], .lda (.mem (.abs 0x1234))), ([0xB1, 0x34], .lda (.mem (.indy 0x34))), ([0xB5, 0x34], .lda (.mem (.zpx 0x34))),
   ([0xB9, 0x34, 0x12], .lda (.mem (.absy 0x1234))), ([0xBD, 0x34, 0x12], .lda (.mem (.absx 0x1234)))] = true := by decide +kernel

theorem test_decode_ldx_tay_tax_tsx : readsAs
  [([0xA2, 0x34], .ldx (.imm 0x34)), ([0xA6, 0x34], .ldx (.mem (.zp 0x34))), ([0xAE, 0x34, 0x12], .ldx (.mem (.abs 0x1234))),
   ([0xB6, 0x34], .ldx (.mem (.zpy 0x34))), ([0xBE, 0x34, 0x12], .ldx (.mem (.absy 0x1234))), ([0xA8], .tay),
   ([0xAA], .tax), ([0xBA], .tsx)] = true := by decide +kernel

/-- R87: the byte 0x02 is unofficial and takes no operand; R71: the empty list and a cut operand are refused. -/
theorem test_decode_unofficial_and_short :
    decode [0x02, 0x34] = .ok (.unofficial 0x02, [0x34]) ∧ (∃ e, decode [] = .error e) ∧ (∃ e, decode [0xAD, 0x34] = .error e) :=
  ⟨rfl, ⟨_, rfl⟩, ⟨_, rfl⟩⟩

/-- The host's numbering: bit 0 is the lowest bit of the first byte, and bits above `nbits` are 0. -/
theorem test_decodeTableWord : decodeTableWord 8 0xA9 = some (.lda (.imm 0x00)) ∧
    decodeTableWord 24 0x1234BD = some (.lda (.mem (.absx 0x1234))) := by decide +kernel

/-! ### One step: the vectors of 95_test_vectors.md part 2, at most two for an instruction -/

/-- The start of a vector: the registers, and bytes loaded into a flat memory. -/
structure Start where
  pc : Addr := 0x8000
  sp : Byte := 0xFD
  a : Byte := 0x00
  x : Byte := 0x00
  y : Byte := 0x00
  p : Byte := 0x24
  nmi : Bool := false
  irq : Bool := false
  platform : Platform := .flat
  load : List (Addr × List Byte) := []

/-- The state a vector starts in, `cycles` 0 and nothing on record. -/
def Start.state (v : Start) : State :=
  { pc := v.pc, sp := v.sp, a := v.a, x := v.x, y := v.y, p := v.p, cycles := 0, nmiPending := v.nmi, irqPending := v.irq
    bus := v.load.foldl (fun b e => b.loadRun e.1 e.2) { Bus.constructed with platform := v.platform } }

/-- What `f` finds after one step. -/
def afterStep {α : Type} (v : Start) (f : State → α) : Option α :=
  match step v.state with
  | .next t => some (f t)
  | _ => none

/-- What `f` finds after an instruction. -/
def afterExec {α : Type} (i : Instr) (s : State) (f : State → α) : Option α :=
  match exec i s with
  | .next t => some (f t)
  | _ => none

/-- The bus writes on record, oldest first. -/
def writesOf (t : State) : List (Addr × Byte) :=
  t.bus.history.reverse.filterMap fun e =>
    match e with
    | .write a v => some (a, v)
    | _ => none

/-- R100, R81: `LDA ($FF,X)`. -/
theorem test_lda_1 : afterStep { load := [(0x0000, [0x12]), (0x00FF, [0x34]), (0x1234, [0x5A]), (0x8000, [0xA1, 0xFF])] }
    (fun t => (t.pc, t.a, t.p, t.cycles)) = some (0x8002, 0x5A, 0x24, 6) := by decide +kernel

/-- R100, R82, R251: `LDA ($FF),Y`. -/
theorem test_lda_2 : afterStep { y := 0x10, load := [(0x0000, [0x02]), (0x00FF, [0xF8]), (0x0308, [0x00]), (0x8000, [0xB1, 0xFF])] }
    (fun t => (t.pc, t.p, t.cycles)) = some (0x8002, 0x26, 6) := by decide +kernel

/-- R101, R76: `LDX $F0,Y`. -/
theorem test_ldx_1 : afterStep { y := 0x20, load := [(0x0010, [0x00]), (0x8000, [0xB6, 0xF0])] }
    (fun t => (t.pc, t.p, t.cycles)) = some (0x8002, 0x26, 4) := by decide +kernel

/-- R101, R79, R251: `LDX $10FF,Y`. -/
theorem test_ldx_2 : afterStep { y := 0x01, load := [(0x1100, [0xFE]), (0x8000, [0xBE, 0xFF, 0x10])] }
    (fun t => (t.pc, t.x, t.p, t.cycles)) = some (0x8003, 0xFE, 0xA4, 5) := by decide +kernel

/-- R102: `LDY #$FF`. -/
theorem test_ldy : afterStep { load := [(0x8000, [0xA0, 0xFF])] }
    (fun t => (t.pc, t.y, t.p, t.cycles)) = some (0x8002, 0xFF, 0xA4, 2) := by decide +kernel

/-- R103, R251: `STA $12FF,X`. -/
theorem test_sta_1 : afterStep { a := 0x77, x := 0x01, load := [(0x8000, [0x9D, 0xFF, 0x12])] }
    (fun t => ((t.pc, t.p, t.cycles), writesOf t)) = some ((0x8003, 0x24, 5), [(0x1300, 0x77)]) := by decide +kernel

/-- R103: `STA ($10),Y`. -/
theorem test_sta_2 : afterStep { a := 0x11, y := 0xFF, load := [(0x0010, [0x01]), (0x0011, [0x02]), (0x8000, [0x91, 0x10])] }
    (fun t => ((t.pc, t.p, t.cycles), writesOf t)) = some ((0x8002, 0x24, 6), [(0x0300, 0x11)]) := by decide +kernel

/-- R104, R76: `STX $FF,Y`. -/
theorem test_stx : afterStep { x := 0xAB, y := 0x01, load := [(0x8000, [0x96, 0xFF])] }
    (fun t => ((t.pc, t.p, t.cycles), writesOf t)) = some ((0x8002, 0x24, 4), [(0x0000, 0xAB)]) := by decide +kernel

/-- R105, R75: `STY $80,X`. -/
theorem test_sty : afterStep { x := 0x90, y := 0xCD, load := [(0x8000, [0x94, 0x80])] }
    (fun t => ((t.pc, t.p, t.cycles), writesOf t)) = some ((0x8002, 0x24, 4), [(0x0010, 0xCD)]) := by decide +kernel

/-- R106: `TAX`. -/
theorem test_tax : afterStep { x := 0x12, load := [(0x8000, [0xAA])] }
    (fun t => (t.pc, t.x, t.p, t.cycles)) = some (0x8001, 0x00, 0x26, 2) := by decide +kernel

/-- R107: `TAY`. -/
theorem test_tay : afterStep { a := 0x9C, load := [(0x8000, [0xA8])] }
    (fun t => (t.pc, t.y, t.p, t.cycles)) = some (0x8001, 0x9C, 0xA4, 2) := by decide +kernel

/-- R108: `TSX`. -/
theorem test_tsx : afterStep { load := [(0x8000, [0xBA])] }
    (fun t => (t.pc, t.x, t.p, t.cycles)) = some (0x8001, 0xFD, 0xA4, 2) := by decide +kernel

/-- R109: `TXA`. -/
theorem test_txa : afterStep { a := 0xFF, x := 0x01, p := 0xA6, load := [(0x8000, [0x8A])] }
    (fun t => (t.pc, t.a, t.p, t.cycles)) = some (0x8001, 0x01, 0x24, 2) := by decide +kernel

/-- R110: `TXS`. -/
theorem test_txs : afterStep { load := [(0x8000, [0x9A])] }
    (fun t => (t.pc, t.sp, t.p, t.cycles)) = some (0x8001, 0x00, 0x24, 2) := by decide +kernel

/-- R111: `TYA`. -/
theorem test_tya : afterStep { y := 0x80, load := [(0x8000, [0x98])] }
    (fun t => (t.pc, t.a, t.p, t.cycles)) = some (0x8001, 0x80, 0xA4, 2) := by decide +kernel

/-- R123, R122: `PHA`. -/
theorem test_pha : afterStep { sp := 0x00, a := 0x3C, load := [(0x8000, [0x48])] }
    (fun t => ((t.pc, t.sp, t.p, t.cycles), writesOf t)) = some ((0x8001, 0xFF, 0x24, 3), [(0x0100, 0x3C)]) := by decide +kernel

/-- R124: `PHP`. -/
theorem test_php : afterStep { p := 0xE7, load := [(0x8000, [0x08])] }
    (fun t => ((t.pc, t.sp, t.p, t.cycles), writesOf t)) = some ((0x8001, 0xFC, 0xE7, 3), [(0x01FD, 0xF7)]) := by decide +kernel

/-- R125, R122: `PLA`. -/
theorem test_pla : afterStep { sp := 0xFF, a := 0x55, load := [(0x0100, [0x00]), (0x8000, [0x68])] }
    (fun t => (t.pc, t.a, t.sp, t.p, t.cycles)) = some (0x8001, 0x00, 0x00, 0x26, 4) := by decide +kernel

/-- R126: `PLP`. -/
theorem test_plp_1 : afterStep { sp := 0xFC, load := [(0x01FD, [0xFF]), (0x8000, [0x28])] }
    (fun t => (t.pc, t.sp, t.p, t.cycles)) = some (0x8001, 0xFD, 0xEF, 4) := by decide +kernel

/-- R126: `PLP`. -/
theorem test_plp_2 : afterStep { sp := 0xFC, p := 0xFF, load := [(0x01FD, [0x00]), (0x8000, [0x28])] }
    (fun t => (t.pc, t.sp, t.p, t.cycles)) = some (0x8001, 0xFD, 0x30, 4) := by decide +kernel

/-- R130 (source §8): `ADC #$01`. -/
theorem test_adc_1 : afterStep { a := 0x7F, load := [(0x8000, [0x69, 0x01])] }
    (fun t => (t.pc, t.a, t.p, t.cycles)) = some (0x8002, 0x80, 0xE4, 2) := by decide +kernel

/-- R130: `ADC #$7F`. -/
theorem test_adc_2 : afterStep { p := 0x25, load := [(0x8000, [0x69, 0x7F])] }
    (fun t => (t.pc, t.a, t.p, t.cycles)) = some (0x8002, 0x80, 0xE4, 2) := by decide +kernel

/-- R131: `SBC #$01`. -/
theorem test_sbc_1 : afterStep { p := 0x25, load := [(0x8000, [0xE9, 0x01])] }
    (fun t => (t.pc, t.a, t.p, t.cycles)) = some (0x8002, 0xFF, 0xA4, 2) := by decide +kernel

/-- R131: `SBC #$01`. -/
theorem test_sbc_2 : afterStep { a := 0x80, p := 0x25, load := [(0x8000, [0xE9, 0x01])] }
    (fun t => (t.pc, t.a, t.p, t.cycles)) = some (0x8002, 0x7F, 0x65, 2) := by decide +kernel

/-- R132: `AND #$0F`. -/
theorem test_and : afterStep { a := 0xF0, load := [(0x8000, [0x29, 0x0F])] }
    (fun t => (t.pc, t.a, t.p, t.cycles)) = some (0x8002, 0x00, 0x26, 2) := by decide +kernel

/-- R133: `ORA #$80`. -/
theorem test_ora : afterStep { a := 0x01, load := [(0x8000, [0x09, 0x80])] }
    (fun t => (t.pc, t.a, t.p, t.cycles)) = some (0x8002, 0x81, 0xA4, 2) := by decide +kernel

/-- R134: `EOR #$FF`. -/
theorem test_eor : afterStep { a := 0xFF, p := 0xA4, load := [(0x8000, [0x49, 0xFF])] }
    (fun t => (t.pc, t.a, t.p, t.cycles)) = some (0x8002, 0x00, 0x26, 2) := by decide +kernel

/-- R135: `CMP #$41`. -/
theorem test_cmp_1 : afterStep { a := 0x40, load := [(0x8000, [0xC9, 0x41])] }
    (fun t => (t.pc, t.p, t.cycles)) = some (0x8002, 0xA4, 2) := by decide +kernel

/-- R135: `CMP #$01`. -/
theorem test_cmp_2 : afterStep { a := 0xFF, load := [(0x8000, [0xC9, 0x01])] }
    (fun t => (t.pc, t.p, t.cycles)) = some (0x8002, 0xA5, 2) := by decide +kernel

/-- R136: `BIT $10`. -/
theorem test_bit : afterStep { a := 0x41, p := 0xE7, load := [(0x0010, [0x41]), (0x8000, [0x24, 0x10])] }
    (fun t => (t.pc, t.p, t.cycles)) = some (0x8002, 0x65, 3) := by decide +kernel

/-- R137: `CPX #$10`. -/
theorem test_cpx : afterStep { x := 0x20, load := [(0x8000, [0xE0, 0x10])] }
    (fun t => (t.pc, t.p, t.cycles)) = some (0x8002, 0x25, 2) := by decide +kernel

/-- R138: `CPY $10`. -/
theorem test_cpy : afterStep { load := [(0x0010, [0x01]), (0x8000, [0xC4, 0x10])] }
    (fun t => (t.pc, t.p, t.cycles)) = some (0x8002, 0xA4, 3) := by decide +kernel

/-- R139: `INC $10`. -/
theorem test_inc_1 : afterStep { load := [(0x0010, [0xFF]), (0x8000, [0xE6, 0x10])] }
    (fun t => ((t.pc, t.p, t.cycles), writesOf t)) = some ((0x8002, 0x26, 5), [(0x0010, 0x00)]) := by decide +kernel

/-- R139: `INC $1000,X`. -/
theorem test_inc_2 : afterStep { x := 0xFF, load := [(0x10FF, [0x7F]), (0x8000, [0xFE, 0x00, 0x10])] }
    (fun t => ((t.pc, t.p, t.cycles), writesOf t)) = some ((0x8003, 0xA4, 7), [(0x10FF, 0x80)]) := by decide +kernel

/-- R140: `DEC $10`. -/
theorem test_dec : afterStep { load := [(0x0010, [0x00]), (0x8000, [0xC6, 0x10])] }
    (fun t => ((t.pc, t.p, t.cycles), writesOf t)) = some ((0x8002, 0xA4, 5), [(0x0010, 0xFF)]) := by decide +kernel

/-- R141: `INX`. -/
theorem test_inx : afterStep { x := 0xFF, load := [(0x8000, [0xE8])] }
    (fun t => (t.pc, t.x, t.p, t.cycles)) = some (0x8001, 0x00, 0x26, 2) := by decide +kernel

/-- R142: `INY`. -/
theorem test_iny : afterStep { y := 0x7F, load := [(0x8000, [0xC8])] }
    (fun t => (t.pc, t.y, t.p, t.cycles)) = some (0x8001, 0x80, 0xA4, 2) := by decide +kernel

/-- R143: `DEX`. -/
theorem test_dex : afterStep { load := [(0x8000, [0xCA])] }
    (fun t => (t.pc, t.x, t.p, t.cycles)) = some (0x8001, 0xFF, 0xA4, 2) := by decide +kernel

/-- R144: `DEY`. -/
theorem test_dey : afterStep { y := 0x01, load := [(0x8000, [0x88])] }
    (fun t => (t.pc, t.y, t.p, t.cycles)) = some (0x8001, 0x00, 0x26, 2) := by decide +kernel

/-- R160: `ASL A`. -/
theorem test_asl_1 : afterStep { a := 0x80, load := [(0x8000, [0x0A])] }
    (fun t => (t.pc, t.a, t.p, t.cycles)) = some (0x8001, 0x00, 0x27, 2) := by decide +kernel

/-- R160: `ASL $10`. -/
theorem test_asl_2 : afterStep { load := [(0x0010, [0xC1]), (0x8000, [0x06, 0x10])] }
    (fun t => ((t.pc, t.p, t.cycles), writesOf t)) = some ((0x8002, 0xA5, 5), [(0x0010, 0x82)]) := by decide +kernel

/-- R161: `LSR $1234,X`. -/
theorem test_lsr : afterStep { x := 0x01, load := [(0x1235, [0xFE]), (0x8000, [0x5E, 0x34, 0x12])] }
    (fun t => ((t.pc, t.p, t.cycles), writesOf t)) = some ((0x8003, 0x24, 7), [(0x1235, 0x7F)]) := by decide +kernel

/-- R162: `ROL A`. -/
theorem test_rol : afterStep { a := 0x40, p := 0x25, load := [(0x8000, [0x2A])] }
    (fun t => (t.pc, t.a, t.p, t.cycles)) = some (0x8001, 0x81, 0xA4, 2) := by decide +kernel

/-- R163: `ROR $10,X`. -/
theorem test_ror : afterStep { x := 0x01, p := 0x25, load := [(0x0011, [0x02]), (0x8000, [0x76, 0x10])] }
    (fun t => ((t.pc, t.p, t.cycles), writesOf t)) = some ((0x8002, 0xA4, 6), [(0x0011, 0x81)]) := by decide +kernel

/-- R170, R80: `JMP ($0300)`. -/
theorem test_jmp_1 : afterStep { load := [(0x0300, [0x34]), (0x0301, [0x12]), (0x8000, [0x6C, 0x00, 0x03])] }
    (fun t => (t.pc, t.p, t.cycles)) = some (0x1234, 0x24, 5) := by decide +kernel

/-- R170, R80: `JMP ($02FF)`. -/
theorem test_jmp_2 : afterStep { load := [(0x0200, [0x90]), (0x02FF, [0x00]), (0x0300, [0x80]), (0x8000, [0x6C, 0xFF, 0x02])] }
    (fun t => (t.pc, t.p, t.cycles)) = some (0x9000, 0x24, 5) := by decide +kernel

/-- R171, R122: `JSR $9000`. -/
theorem test_jsr : afterStep { sp := 0x00, load := [(0x8000, [0x20, 0x00, 0x90])] }
    (fun t => ((t.pc, t.sp, t.p, t.cycles), writesOf t)) = some ((0x9000, 0xFE, 0x24, 6), [(0x0100, 0x80), (0x01FF, 0x02)]) := by decide +kernel

/-- R172, R25: `RTS`. -/
theorem test_rts : afterStep { pc := 0x9000, sp := 0xFB, load := [(0x01FC, [0xFF]), (0x01FD, [0xFF]), (0x9000, [0x60])] }
    (fun t => (t.pc, t.sp, t.p, t.cycles)) = some (0x0000, 0xFD, 0x24, 6) := by decide +kernel

/-- R173: `BPL $10`. -/
theorem test_bpl_1 : afterStep { load := [(0x8000, [0x10, 0x10])] }
    (fun t => (t.pc, t.p, t.cycles)) = some (0x8012, 0x24, 3) := by decide +kernel

/-- R173: `BPL $10`. -/
theorem test_bpl_2 : afterStep { p := 0xA4, load := [(0x8000, [0x10, 0x10])] }
    (fun t => (t.pc, t.p, t.cycles)) = some (0x8002, 0xA4, 2) := by decide +kernel

/-- R174: `BMI $FE`. -/
theorem test_bmi : afterStep { p := 0xA4, load := [(0x8000, [0x30, 0xFE])] }
    (fun t => (t.pc, t.p, t.cycles)) = some (0x8000, 0xA4, 3) := by decide +kernel

/-- R175, R252: `BVC $7F`. -/
theorem test_bvc : afterStep { pc := 0x80F0, load := [(0x80F0, [0x50, 0x7F])] }
    (fun t => (t.pc, t.p, t.cycles)) = some (0x8171, 0x24, 4) := by decide +kernel

/-- R176, R252: `BVS $80`. -/
theorem test_bvs : afterStep { p := 0x64, load := [(0x8000, [0x70, 0x80])] }
    (fun t => (t.pc, t.p, t.cycles)) = some (0x7F82, 0x64, 4) := by decide +kernel

/-- R177: `BCC $02`. -/
theorem test_bcc : afterStep { p := 0x25, load := [(0x8000, [0x90, 0x02])] }
    (fun t => (t.pc, t.p, t.cycles)) = some (0x8002, 0x25, 2) := by decide +kernel

/-- R178: `BCS $02`. -/
theorem test_bcs : afterStep { p := 0x25, load := [(0x8000, [0xB0, 0x02])] }
    (fun t => (t.pc, t.p, t.cycles)) = some (0x8004, 0x25, 3) := by decide +kernel

/-- R179: `BNE $FA`. -/
theorem test_bne : afterStep { pc := 0x8008, load := [(0x8008, [0xD0, 0xFA])] }
    (fun t => (t.pc, t.p, t.cycles)) = some (0x8004, 0x24, 3) := by decide +kernel

/-- R180, R252: `BEQ $01`. -/
theorem test_beq : afterStep { pc := 0x80FD, p := 0x26, load := [(0x80FD, [0xF0, 0x01])] }
    (fun t => (t.pc, t.p, t.cycles)) = some (0x8100, 0x26, 4) := by decide +kernel

/-- R181: `BRK`. -/
theorem test_brk : afterStep { p := 0xE3, load := [(0xFFFE, [0x00]), (0xFFFF, [0xC0]), (0x8000, [0x00, 0xEA])] }
    (fun t => ((t.pc, t.sp, t.p, t.cycles), writesOf t)) = some ((0xC000, 0xFA, 0xE7, 7), [(0x01FD, 0x80), (0x01FC, 0x02), (0x01FB, 0xF3)]) := by decide +kernel

/-- R182: `RTI`. -/
theorem test_rti : afterStep { pc := 0xC000, sp := 0xFA, load := [(0x01FB, [0xF3]), (0x01FC, [0x02]), (0x01FD, [0x80]), (0xC000, [0x40])] }
    (fun t => (t.pc, t.sp, t.p, t.cycles)) = some (0x8002, 0xFD, 0xE3, 6) := by decide +kernel

/-- R190: `CLC`. -/
theorem test_clc : afterStep { p := 0x25, load := [(0x8000, [0x18])] }
    (fun t => (t.pc, t.p, t.cycles)) = some (0x8001, 0x24, 2) := by decide +kernel

/-- R191: `SEC`. -/
theorem test_sec : afterStep { load := [(0x8000, [0x38])] }
    (fun t => (t.pc, t.p, t.cycles)) = some (0x8001, 0x25, 2) := by decide +kernel

/-- R192: `CLI`. -/
theorem test_cli : afterStep { load := [(0x8000, [0x58])] }
    (fun t => (t.pc, t.p, t.cycles)) = some (0x8001, 0x20, 2) := by decide +kernel

/-- R193: `SEI`. -/
theorem test_sei : afterStep { p := 0x20, load := [(0x8000, [0x78])] }
    (fun t => (t.pc, t.p, t.cycles)) = some (0x8001, 0x24, 2) := by decide +kernel

/-- R194: `CLV`. -/
theorem test_clv : afterStep { p := 0x64, load := [(0x8000, [0xB8])] }
    (fun t => (t.pc, t.p, t.cycles)) = some (0x8001, 0x24, 2) := by decide +kernel

/-- R195: `CLD`. -/
theorem test_cld : afterStep { p := 0x2C, load := [(0x8000, [0xD8])] }
    (fun t => (t.pc, t.p, t.cycles)) = some (0x8001, 0x24, 2) := by decide +kernel

/-- R196: `SED`. -/
theorem test_sed : afterStep { load := [(0x8000, [0xF8])] }
    (fun t => (t.pc, t.p, t.cycles)) = some (0x8001, 0x2C, 2) := by decide +kernel

/-- R197, R25: `NOP`. -/
theorem test_nop : afterStep { pc := 0xFFFF, load := [(0xFFFF, [0xEA])] }
    (fun t => (t.pc, t.p, t.cycles)) = some (0x0000, 0x24, 2) := by decide +kernel

/-- R198: `.byte $02`. -/
theorem test_unofficial_1 : afterStep { a := 0x11, load := [(0x8000, [0x02])] }
    (fun t => (t.pc, t.p, t.cycles)) = some (0x8001, 0x24, 2) := by decide +kernel

/-- R198: `.byte $9C, $00, $02`. -/
theorem test_unofficial_2 : afterStep { y := 0x55, load := [(0x8000, [0x9C, 0x00, 0x02])] }
    (fun t => (t.pc, t.p, t.cycles)) = some (0x8001, 0x24, 2) := by decide +kernel

/-- R216, R217: `NMI, handler starts NOP`. -/
theorem test_nmi_entry : afterStep { pc := 0x8123, nmi := true, load := [(0x9000, [0xEA]), (0xFFFA, [0x00]), (0xFFFB, [0x90])] }
    (fun t => ((t.pc, t.sp, t.p, t.cycles), writesOf t)) = some ((0x9001, 0xFA, 0x24, 9), [(0x01FD, 0x81), (0x01FC, 0x23), (0x01FB, 0x24)]) := by decide +kernel

/-- R216, R218: `IRQ, I = 0, handler NOP`. -/
theorem test_irq_entry : afterStep { pc := 0x8123, p := 0xE3, irq := true, load := [(0xC000, [0xEA]), (0xFFFE, [0x00]), (0xFFFF, [0xC0])] }
    (fun t => ((t.pc, t.sp, t.p, t.cycles), writesOf t)) = some ((0xC001, 0xFA, 0xE7, 9), [(0x01FD, 0x81), (0x01FC, 0x23), (0x01FB, 0xE3)]) := by decide +kernel

/-- R215, R218: `IRQ pending, I = 1: NOP runs`. -/
theorem test_irq_masked : afterStep { pc := 0x8123, irq := true, load := [(0xFFFE, [0x00]), (0xFFFF, [0xC0]), (0x8123, [0xEA])] }
    (fun t => (t.pc, t.p, t.cycles, t.irqPending)) = some (0x8124, 0x24, 2, true) := by decide +kernel

/-- R219: `NMI and IRQ, I = 0`. -/
theorem test_nmi_before_irq : afterStep { pc := 0x8123, p := 0x20, nmi := true, irq := true, load := [(0x9000, [0xEA]), (0xFFFA, [0x00]), (0xFFFB, [0x90]), (0xFFFE, [0x00]), (0xFFFF, [0xC0])] }
    (fun t => ((t.pc, t.sp, t.cycles, t.irqPending), writesOf t)) = some ((0x9001, 0xFA, 9, true), [(0x01FD, 0x81), (0x01FC, 0x23), (0x01FB, 0x20)]) := by decide +kernel

/-! ### Host interface and memory -/

/-- R240: reset loads PC from 0xFFFC low byte first and writes no memory. -/
theorem test_reset_loads_vector :
    let t := resetCore ({ a := 0x11, sp := 0x20, p := 0xE3, nmi := true, load := [(0xFFFC, [0x00, 0x80])] } : Start).state
    (t.pc, t.sp, t.a, t.p, t.cycles) = (0x8000, 0xFD, 0x00, 0x24, 7) ∧ t.nmiPending = false ∧ writesOf t = [] := by decide +kernel

/-- R33, R40: bit 5 of P is stored as 1, bit 4 as offered. -/
theorem test_state_port_p : (writePort (.p 0x10) State.reset).p = 0x30 ∧ (writePort (.p 0xC0) State.reset).readP = 0xE0 := by
  decide

/-- R41, example E4 of 95_test_vectors.md: the 9 bytes before the RAM image. -/
theorem test_save_image_prefix :
    (saveImage ({ pc := 0xC123, sp := 0xF0, a := 0x01, x := 0x02, y := 0x03, p := 0xA5 } : Start).state).take 9 =
      [0x23, 0xC1, 0x00, 0x00, 0xF0, 0x01, 0x02, 0x03, 0xA5] := by decide +kernel

/-- R56, example E3: a byte stored at 0x0000 is loaded at 0x1800. -/
theorem test_ram_mirror :
    afterExec (.sta (.abs 0x0000)) ({ a := 0x5A, platform := .nes } : Start).state (fun t => t.bus.peek 0x1800) = some (some 0x5A) := by
  decide +kernel

/-- R56: 0x2008 and 0x3FFA are mirrors of the PPU registers at 0x2000 and 0x2002; the windows around are not mirrored. -/
theorem test_ppu_window_mirrored :
    Platform.nes.decodedAddr 0x2008 = 0x2000 ∧ Platform.nes.decodedAddr 0x3FFA = 0x2002 ∧
      Platform.nes.decodedAddr 0x3FFF = 0x2007 ∧ Platform.nes.decodedAddr 0x1FFF = 0x1FFF ∧
      Platform.nes.decodedAddr 0x4016 = 0x4016 := by decide

/-- A write of the unlisted byte removes the entry (log 1). -/
theorem test_memory_canonical : ((Memory.write [] 5 7).write 3 1).write 5 0 = [(3, 1)] := by decide +kernel

/-- Every opcode-table word is run by the step after reset (log 12): LDX absolute,Y with a zero operand. -/
theorem test_withFetchWord :
    (match step (State.reset.withFetchWord 8 0xBE) with
      | .next t => some (t.pc, t.cycles)
      | _ => none) = some (0x0003, 11) := by decide +kernel

/-! ### Witnesses: states and operands that meet the hypotheses of each obligation -/

theorem test_witness_DecodeOfEncodeIsIdentity : (Instr.lda (.mem (.indy 0xFF))).wf = true ∧ (Instr.unofficial 0x02).wf = true ∧
    (Instr.jmp (.ind 0xFFFF)).wf = true := by decide

theorem test_witness_EncodeOfDecodeIsIdentity :
    decode [0xBD, 0xFF, 0x12, 0xEA] = .ok (.lda (.mem (.absx 0x12FF)), [0xEA]) := rfl

theorem test_witness_DecodingIsTotal : (0xFF : Byte) ∈ unofficialOpcodes ∧ (0xEA : Byte) ∉ unofficialOpcodes := by decide

theorem test_witness_LengthFollowsOpcodeByte : decode [0x40] = .ok (.rti, []) ∧
    decode [0xF0, 0x80, 0x01] = .ok (.beq 0x80, [0x01]) := ⟨rfl, rfl⟩

/-- LDA immediate across the top of the address space, with an NMI to enter first. -/
theorem test_witness_StepRunsDecodedInstruction :
    let s := ({ nmi := true, load := [(0xFFFA, [0xFF, 0xFF]), (0xFFFF, [0xFF])] } : Start).state
    let u := pollInterrupts s
    u.pc = 0xFFFF ∧ (Instr.unofficial 0xFF).wf = true ∧ u.bus.answersRun u.pc (encode (.unofficial 0xFF)) :=
  ⟨by decide +kernel, by decide, by decide +kernel, trivial⟩

theorem test_witness_StepRunsDecodedInstruction_operands :
    let s := ({ pc := 0xFFFF, load := [(0xFFFF, [0xAD, 0x34, 0x12])] } : Start).state
    (Instr.lda (.mem (.abs 0x1234))).wf = true ∧
      (pollInterrupts s).bus.answersRun (pollInterrupts s).pc (encode (.lda (.mem (.abs 0x1234)))) :=
  ⟨by decide, by decide +kernel, by decide +kernel, by decide +kernel, trivial⟩

theorem test_witness_StepCycleBounds : ∃ t, step State.reset = .next t := ⟨_, rfl⟩

/-- A state for each clause: an NMI, an IRQ with I = 0, an IRQ with I = 1, nothing. -/
theorem test_witness_PollEntersOneInterrupt :
    (({ nmi := true, irq := true } : Start).state.nmiPending = true) ∧
    (let s := ({ irq := true, p := 0x20 } : Start).state; s.nmiPending = false ∧ s.irqPending = true ∧ s.p &&& 0x04 = 0) ∧
    (let s := ({ irq := true, p := 0x24 } : Start).state; s.nmiPending = false ∧ s.p &&& 0x04 ≠ 0) ∧
    (let s := ({ p := 0x20 } : Start).state; s.nmiPending = false ∧ s.irqPending = false) := by decide

theorem test_witness_NmiGoesBeforeIrq :
    let s := ({ nmi := true, irq := true, p := 0x20 } : Start).state
    s.nmiPending = true ∧ s.irqPending = true := by decide

/-- The stack pointer wraps during the pushes. -/
theorem test_witness_RtiUndoesEntry : ({ sp := 0x01, platform := .nes } : Start).state.bus.platform ≠ .anyBus := by decide

theorem test_witness_InterruptInputsLatch :
    let s := ({ irq := true, p := 0x24 } : Start).state
    s.irqPending = true ∧ s.p &&& 0x04 ≠ 0 ∧ s.nmiPending = false := by decide

theorem test_reset_inv : State.reset.Inv := ⟨rfl, rfl⟩

theorem test_witness_SaveStateRoundTrip : ({ p := 0xA5, load := [(0x07FF, [0x5A])], platform := .nes } : Start).state.Inv :=
  ⟨by decide +kernel, by decide⟩

theorem test_witness_InternalRamIsMirrored :
    State.reset.bus.platform = .nes ∧ (0x07FF : Addr).toNat < 0x2000 ∧ (0x1FFF : Addr).toNat < 0x2000 ∧
      (0x07FF : Addr).toNat % 0x0800 = (0x1FFF : Addr).toNat % 0x0800 := by decide

/-- The first and the last address of the window. -/
theorem test_witness_PrgStoreRebanksAndKeepsBytes :
    State.reset.bus.platform = .nes ∧ 0x8000 ≤ (locate (.abs 0x8000) State.reset).ea.toNat ∧
      0x8000 ≤ (locate (.absx 0xFFFF) State.reset).ea.toNat := by decide

theorem test_witness_StackPrimitives : ({ sp := 0x00 } : Start).state.sp = 0x00 ∧ ({ sp := 0xFF } : Start).state.sp = 0xFF := by
  decide

theorem test_witness_StackWrapsAfter256Pushes :
    (List.replicate 256 (0x11 : Byte)).length = 256 ∧ State.reset.bus.platform ≠ .anyBus := by decide +kernel

theorem test_witness_PullFindsWhatWasPushed : ({ sp := 0x00 } : Start).state.bus.platform ≠ .anyBus := by decide

theorem test_witness_RtsReturnsAfterJsr : ({ sp := 0x00, platform := .nes } : Start).state.bus.platform ≠ .anyBus := by decide

theorem test_witness_NonStoringKeepsMemory : Instr.rti.writesMemory = false ∧ ∃ t, exec .rti State.reset = .next t :=
  ⟨rfl, _, rfl⟩

theorem test_witness_StoringKeepsOtherBytes :
    let m := MemMode.absx 0xFFFF
    let s := ({ x := 0x02 } : Start).state
    Instr.inc m ∈ [Instr.sta m, .stx m, .sty m, .inc m, .dec m, .asl (.mem m), .lsr (.mem m), .rol (.mem m), .ror (.mem m)] ∧
      (∃ t, exec (.inc m) s = .next t) ∧ s.bus.platform.region (locate m s).ea = .ram 1 :=
  ⟨by decide, ⟨_, rfl⟩, by decide +kernel⟩

theorem test_witness_RegisterWriters :
    (∃ t, exec .nop State.reset = .next t) ∧ Instr.nop.writesA = false ∧ Instr.nop.writesX = false ∧
      Instr.nop.writesY = false ∧ Instr.nop.writesSp = false := ⟨⟨_, rfl⟩, rfl, rfl, rfl, rfl⟩

theorem test_witness_FlagWriters :
    (∃ t, exec .txs State.reset = .next t) ∧ Instr.txs.writesNZ = false ∧ Instr.txs.writesC = false ∧
      Instr.txs.writesV = false ∧ Instr.txs.writesI = false ∧ Instr.txs.writesD = false ∧ State.reset.flag .unused = true :=
  ⟨⟨_, rfl⟩, rfl, rfl, rfl, rfl, rfl, rfl⟩

/-- One that keeps A and one that overwrites it. -/
theorem test_witness_AccumulatorReaders :
    (Instr.inc (.zp 0x10)).readsA = false ∧ (Instr.inc (.zp 0x10)).writesA = false ∧
      Instr.txa.readsA = false ∧ Instr.txa.writesA = true := by decide

theorem test_witness_IndexRegisterReaders :
    (Instr.ldx (.mem (.absy 0x1000))).readsX = false ∧ (Instr.ldx (.mem (.absy 0x1000))).writesX = true ∧
      (Instr.sta (.indx 0x10)).readsY = false ∧ (Instr.sta (.indx 0x10)).writesY = false := by decide

theorem test_witness_DecimalFlagHasNoEffect : (Instr.adc (.imm 0x50)).usesD = false := rfl

theorem test_witness_StepKeepsInvariant : State.reset.Inv ∧ ∃ t, step State.reset = .next t := ⟨test_reset_inv, _, rfl⟩

theorem test_witness_EnvironmentKeepsInvariant : (environment (.port (.p 0x00)) State.reset).Inv ∧ State.reset.Inv :=
  ⟨⟨rfl, rfl⟩, test_reset_inv⟩

theorem test_witness_RunsCompleteAndKeepInvariant : ({ p := 0x20, load := [(0x8000, [0xEA])] } : Start).state.Inv :=
  ⟨by decide +kernel, by decide⟩

/-- A sum without signed overflow, and one with. -/
theorem test_witness_AdcOverflowIsSignedOverflow :
    afterExec (.adc (.imm 0x01)) ({ a := 0x7E } : Start).state (fun t => t.flag .overflow) = some false ∧
      afterExec (.adc (.imm 0x01)) ({ a := 0x7F } : Start).state (fun t => t.flag .overflow) = some true := by decide +kernel

theorem test_witness_NoOperationForms : (0x02 : Byte) ∈ unofficialOpcodes ∧ (0xFF : Byte) ∈ unofficialOpcodes := by decide

end Sys2Proof.Machine.Tests
end

/-! ## What an instruction can change

`Within R F s t` says once what execution may do to a state: only the registers in `R` and the flags in `F` change.
Every operation of the model keeps it, so each family of instructions, and then `exec`, meets it (10_state.md R21 to
R38). -/

namespace Sys2Proof

/-- The register is one that the instruction writes (R21 to R24). -/
def Instr.writesReg (i : Instr) : Machine.Reg → Bool
  | .a => i.writesA
  | .x => i.writesX
  | .y => i.writesY
  | .sp => i.writesSp

/-- The register is one that the instruction reads (R21 to R23). -/
def Instr.readsReg (i : Instr) : Machine.Reg → Bool
  | .a => i.readsA
  | .x => i.readsX
  | .y => i.readsY
  | .sp => false

/-- The instruction replaces P by a pulled status byte (R35). -/
def Instr.pullsStatus : Instr → Bool
  | .plp | .rti => true
  | _ => false

/-- The bit of P is one that the instruction writes (R27 to R33). -/
def Instr.writesFlag (i : Instr) : Machine.Flag → Bool
  | .zero | .negative => i.writesNZ
  | .carry => i.writesC
  | .overflow => i.writesV
  | .interruptDisable => i.writesI
  | .decimal => i.writesD
  | .brk => false
  | .unused => i.pullsStatus

end Sys2Proof

namespace Sys2Proof.Machine

/-- `t` comes from `s` by changes to the registers in `R`, the flags in `F`, PC, the counter (never downwards) and the
bus, with storage kept canonical and bit 5 of P kept at 1. -/
structure Within (R : Reg → Bool) (F : Flag → Bool) (s t : State) : Prop where
  reg : ∀ r, R r = false → t.getReg r = s.getReg r
  flag : ∀ f, F f = false → t.flag f = s.flag f
  nmiPending : t.nmiPending = s.nmiPending
  irqPending : t.irqPending = s.irqPending
  mem_wf : s.bus.mem.wf = true → t.bus.mem.wf = true
  bit5 : s.flag .unused = true → t.flag .unused = true
  cycles_le : s.cycles ≤ t.cycles

/-- The same, and the counter rose. -/
structure Ran (R : Reg → Bool) (F : Flag → Bool) (s t : State) : Prop extends Within R F s t where
  cycles_lt : s.cycles < t.cycles

/-- The answer is a next state, reached within `R` and `F`. -/
inductive Completes (R : Reg → Bool) (F : Flag → Bool) (s : State) : Result → Prop where
  | next {t : State} (h : Ran R F s t) : Completes R F s (.next t)

section
variable {R : Reg → Bool} {F : Flag → Bool} {s t : State}

/-! ### Each operation keeps within -/

theorem Within.of_reads (h : ReadsOf s t) : Within R F s t := by
  obtain ⟨new, -, rfl⟩ := h
  exact ⟨fun r _ => by cases r <;> rfl, fun _ _ => rfl, rfl, rfl, id, id, le_rfl⟩

theorem Within.refl (s : State) : Within R F s s := .of_reads (.refl s)

theorem Within.inv (h : Within R F s t) (hs : s.Inv) : t.Inv := ⟨h.mem_wf hs.1, h.bit5 hs.2⟩

theorem Within.setReg (h : Within R F s t) {r : Reg} (v : Byte) (hr : R r = true) : Within R F s (t.setReg r v) where
  reg r' hr' := by
    rw [State.getReg_setReg, if_neg (by rintro rfl; simp [hr] at hr'), h.reg r' hr']
  flag f hf := by rw [State.flag, State.setReg_p]; exact h.flag f hf
  nmiPending := by rw [State.setReg_nmiPending, h.nmiPending]
  irqPending := by rw [State.setReg_irqPending, h.irqPending]
  mem_wf hs := by rw [State.setReg_bus]; exact h.mem_wf hs
  bit5 hs := by rw [State.flag, State.setReg_p]; exact h.bit5 hs
  cycles_le := by rw [State.setReg_cycles]; exact h.cycles_le

theorem Within.setFlag (h : Within R F s t) {f : Flag} (b : Bool) (hf : F f = true) (h5 : f ≠ .unused) :
    Within R F s (t.setFlag f b) :=
  { h with
    reg := fun r hr => by rw [← h.reg r hr]; cases r <;> rfl
    flag := fun g hg => by rw [State.flag_setFlag, if_neg (by rintro rfl; simp [hf] at hg), h.flag g hg]
    bit5 := fun hs => by rw [State.flag_setFlag, if_neg h5.symm, h.bit5 hs] }

theorem Within.setNZ (h : Within R F s t) (v : Byte) (hz : F .zero = true) (hn : F .negative = true) :
    Within R F s (setNZ v t) :=
  (h.setFlag _ hz (by decide)).setFlag _ hn (by decide)

/-- A pulled status byte leaves B alone and sets bit 5 (R35). -/
theorem Within.pullStatus (h : Within R F s t) (v : Byte) (hF : ∀ f, F f = false → f = .brk) :
    Within R F s { t with p := pullImage v t.p } :=
  { h with
    reg := fun r hr => by rw [← h.reg r hr]; cases r <;> rfl
    flag := fun f hf => by
      cases hF f hf
      rw [← h.flag .brk hf]
      simp [State.flag, Flag.position, pullImage]
    bit5 := fun _ => by simp [State.flag, Flag.position, pullImage] }

theorem Within.memRead (h : Within R F s t) (a : Addr) : Within R F s (memRead a t).2 :=
  { h with reg := fun r hr => by rw [← h.reg r hr]; cases r <;> rfl }

theorem Within.memWrite (h : Within R F s t) (a : Addr) (v : Byte) : Within R F s (memWrite a v t) :=
  { h with
    reg := fun r hr => by rw [← h.reg r hr]; cases r <;> rfl
    mem_wf := fun hs => Bus.wf_write a v (h.mem_wf hs) }

theorem Within.push (h : Within R F s t) (v : Byte) (hsp : R .sp = true) : Within R F s (push v t) :=
  (h.memWrite _ v).setReg _ hsp

theorem Within.push16 (h : Within R F s t) (w : Addr) (hsp : R .sp = true) : Within R F s (push16 w t) :=
  (h.push _ hsp).push _ hsp

theorem Within.pull (h : Within R F s t) (hsp : R .sp = true) : Within R F s (pull t).2 :=
  (h.setReg _ hsp).memRead _

theorem Within.pull16 (h : Within R F s t) (hsp : R .sp = true) : Within R F s (pull16 t).2 :=
  (h.pull hsp).pull hsp

theorem Within.setPc (h : Within R F s t) (w : Addr) : Within R F s { t with pc := w } :=
  { h with reg := fun r hr => by rw [← h.reg r hr]; cases r <;> rfl }

theorem Within.returnFromException (h : Within R F s t) (hsp : R .sp = true) (hF : ∀ f, F f = false → f = .brk) :
    Within R F s (returnFromException t) :=
  (((h.pull hsp).pullStatus _ hF).pull16 hsp).setPc _

theorem Within.addToA (h : Within R F s t) (v : Byte) (ha : R .a = true) (hz : F .zero = true)
    (hn : F .negative = true) (hc : F .carry = true) (hv : F .overflow = true) : Within R F s (addToA v t) :=
  (((h.setReg _ ha).setFlag _ hc (by decide)).setFlag _ hv (by decide)).setNZ _ hz hn

theorem Within.compareFlags (h : Within R F s t) (r v : Byte) (hz : F .zero = true) (hn : F .negative = true)
    (hc : F .carry = true) : Within R F s (compareFlags r v t) :=
  (h.setFlag _ hc (by decide)).setNZ _ hz hn

theorem Within.bitFlags (h : Within R F s t) (v : Byte) (hz : F .zero = true) (hn : F .negative = true)
    (hv : F .overflow = true) : Within R F s (bitFlags v t) :=
  ((h.setFlag _ hz (by decide)).setFlag _ hn (by decide)).setFlag _ hv (by decide)

/-- Assigning PC and adding a cost, as both ends of an instruction do. -/
theorem Within.ending (h : Within R F s t) (target : Addr) {cost : Nat} (hcost : 0 < cost) :
    Ran R F s (finishAt target cost t) :=
  { h with
    reg := fun r hr => by rw [← h.reg r hr]; cases r <;> rfl
    cycles_le := h.cycles_le.trans (Nat.le_add_right _ _)
    cycles_lt := Nat.lt_of_le_of_lt h.cycles_le (Nat.lt_add_of_pos_right hcost) }

theorem Within.finish (h : Within R F s t) (len : Nat) {cost : Nat} (hcost : 0 < cost) : Ran R F s (finish len cost t) :=
  h.ending _ hcost

/-! ### Costs are positive -/

theorem readCost_pos (m : ReadMode) (crossed : Bool) : 0 < readCost m crossed := by
  cases m with
  | imm v => exact Nat.two_pos
  | mem m => cases m <;> simp [readCost]

theorem storeCost_pos (m : MemMode) : 0 < storeCost m := by cases m <;> exact Nat.succ_pos _

theorem modifyCost_pos (m : MemMode) : 0 < modifyCost m := by cases m <;> exact Nat.succ_pos _

theorem branchCost_pos (taken : Bool) (next target : Addr) : 0 < branchCost taken next target := by
  unfold branchCost
  split
  · split <;> decide
  · decide

/-! ### Each family of instructions completes within what it writes -/

theorem withOperand_completes (m : ReadMode) {f : Byte → State → State}
    (hf : ∀ v t, Within R F s t → Within R F s (f v t)) : Completes R F s (withOperand m f s) :=
  .next ((hf _ _ (.of_reads (readOperand_reads m s))).finish _ (readCost_pos _ _))

theorem loadReg_completes (r : Reg) (m : ReadMode) (hr : R r = true) (hz : F .zero = true) (hn : F .negative = true) :
    Completes R F s (loadReg r m s) :=
  withOperand_completes m fun _ _ h => (h.setReg _ hr).setNZ _ hz hn

theorem logicA_completes (f : Byte → Byte → Byte) (m : ReadMode) (ha : R .a = true) (hz : F .zero = true)
    (hn : F .negative = true) : Completes R F s (logicA f m s) :=
  withOperand_completes m fun _ _ h => (h.setReg (r := .a) _ ha).setNZ _ hz hn

theorem compareReg_completes (r : Reg) (m : ReadMode) (hz : F .zero = true) (hn : F .negative = true)
    (hc : F .carry = true) : Completes R F s (compareReg r m s) :=
  withOperand_completes m fun _ _ h => h.compareFlags _ _ hz hn hc

theorem storeReg_completes (r : Reg) (m : MemMode) : Completes R F s (storeReg r m s) :=
  .next ((Within.memWrite (.of_reads (locate_reads m s)) _ _).finish _ (storeCost_pos m))

theorem transferNZ_completes (src dst : Reg) (hr : R dst = true) (hz : F .zero = true) (hn : F .negative = true) :
    Completes R F s (transferNZ src dst s) :=
  .next ((((Within.refl s).setReg _ hr).setNZ _ hz hn).finish _ (by decide))

theorem updateReg_completes (r : Reg) (v : Byte) (hr : R r = true) (hz : F .zero = true) (hn : F .negative = true) :
    Completes R F s (updateReg r v s) :=
  .next ((((Within.refl s).setReg _ hr).setNZ _ hz hn).finish _ (by decide))

theorem modifyMem_completes (f : Byte → Byte) (m : MemMode) (hz : F .zero = true) (hn : F .negative = true) :
    Completes R F s (modifyMem f m s) :=
  .next (((Within.memWrite (.memRead (.of_reads (locate_reads m s)) _) _ _).setNZ _ hz hn).finish _ (modifyCost_pos m))

theorem shift_acc_completes (f : Byte → Bool → Shifted) (ha : R .a = true) (hz : F .zero = true)
    (hn : F .negative = true) (hc : F .carry = true) : Completes R F s (shift f .acc s) :=
  .next (((((Within.refl s).setFlag _ hc (by decide)).setReg (r := .a) _ ha).setNZ _ hz hn).finish _ (by decide))

theorem shift_mem_completes (f : Byte → Bool → Shifted) (m : MemMode) (hz : F .zero = true) (hn : F .negative = true)
    (hc : F .carry = true) : Completes R F s (shift f (.mem m) s) :=
  .next (((((Within.memRead (.of_reads (locate_reads m s)) _).setFlag _ hc (by decide)).memWrite _ _).setNZ _ hz
    hn).finish _ (modifyCost_pos m))

theorem branchIf_completes (taken : Bool) (off : Byte) : Completes R F s (branchIf taken off s) :=
  .next ((Within.refl s).ending _ (branchCost_pos _ _ _))

theorem writeFlag_completes (f : Flag) (b : Bool) (hf : F f = true) (h5 : f ≠ .unused) :
    Completes R F s (writeFlag f b s) :=
  .next (((Within.refl s).setFlag b hf h5).finish _ (by decide))

theorem execJmp_completes (m : JumpMode) : Completes R F s (execJmp m s) := by
  cases m with
  | abs w => exact .next ((Within.refl s).ending w (by decide))
  | ind w => exact .next ((((Within.refl s).memRead w).memRead _).ending _ (by decide))

/-- Entering an exception writes SP and I (R220). -/
theorem takeException_ran (vec ret : Addr) (b : Bool) (hsp : R .sp = true) (hi : F .interruptDisable = true) :
    Ran R F s (takeException vec ret b s) :=
  (((((Within.refl s).push16 ret hsp).push _ hsp).setFlag true hi (by decide)).memRead vec |>.memRead _).ending _
    (by decide)

end

/-! ### `exec` -/

/-- Every instruction completes, raises the counter, and writes only what its writer lists name. -/
theorem exec_completes (i : Instr) (s : State) : Completes i.writesReg i.writesFlag s (exec i s) := by
  cases i with
  | lda m => exact loadReg_completes .a m rfl rfl rfl
  | ldx m => exact loadReg_completes .x m rfl rfl rfl
  | ldy m => exact loadReg_completes .y m rfl rfl rfl
  | sta m => exact storeReg_completes .a m
  | stx m => exact storeReg_completes .x m
  | sty m => exact storeReg_completes .y m
  | tax => exact transferNZ_completes .a .x rfl rfl rfl
  | tay => exact transferNZ_completes .a .y rfl rfl rfl
  | tsx => exact transferNZ_completes .sp .x rfl rfl rfl
  | txa => exact transferNZ_completes .x .a rfl rfl rfl
  | tya => exact transferNZ_completes .y .a rfl rfl rfl
  | txs => exact .next (((Within.refl s).setReg (r := .sp) _ rfl).finish _ (by decide))
  | pha | php => exact .next (((Within.refl s).push _ rfl).finish _ (by decide))
  | pla => exact .next (((((Within.refl s).pull rfl).setReg (r := .a) _ rfl).setNZ _ rfl rfl).finish _ (by decide))
  | plp => exact .next ((((Within.refl s).pull rfl).pullStatus _ (by intro f; cases f <;> decide)).finish _ (by decide))
  | adc m => exact withOperand_completes (f := addToA) m fun v _ h => h.addToA v rfl rfl rfl rfl rfl
  | sbc m => exact withOperand_completes (f := fun v t => addToA (v ^^^ 0xFF) t) m fun v _ h => h.addToA _ rfl rfl rfl rfl rfl
  | and m => exact logicA_completes (fun a v => a &&& v) m rfl rfl rfl
  | ora m => exact logicA_completes (fun a v => a ||| v) m rfl rfl rfl
  | eor m => exact logicA_completes (fun a v => a ^^^ v) m rfl rfl rfl
  | cmp m => exact compareReg_completes .a m rfl rfl rfl
  | cpx m => exact compareReg_completes .x m rfl rfl rfl
  | cpy m => exact compareReg_completes .y m rfl rfl rfl
  | bit m => exact withOperand_completes (f := bitFlags) (.mem m) fun _ _ h => h.bitFlags _ rfl rfl rfl
  | inc m => exact modifyMem_completes (fun v => v + 1) m rfl rfl
  | dec m => exact modifyMem_completes (fun v => v - 1) m rfl rfl
  | inx | dex => exact updateReg_completes .x _ rfl rfl rfl
  | iny | dey => exact updateReg_completes .y _ rfl rfl rfl
  | asl m | lsr m | rol m | ror m =>
    cases m with
    | acc => exact shift_acc_completes _ rfl rfl rfl rfl
    | mem m => exact shift_mem_completes _ m rfl rfl rfl
  | jmp m => exact execJmp_completes m
  | jsr w => exact .next (((Within.refl s).push16 _ rfl).ending w (by decide))
  | rts => exact .next (((Within.refl s).pull16 rfl).ending _ (by decide))
  | bpl off | bmi off | bvc off | bvs off | bcc off | bcs off | bne off | beq off => exact branchIf_completes _ off
  | brk => exact .next (takeException_ran _ _ true rfl rfl)
  | rti => exact .next (((Within.refl s).returnFromException rfl (by intro f; cases f <;> decide)).ending _ (by decide))
  | clc | sec | cli | sei | clv | cld | sed => exact writeFlag_completes _ _ rfl (by decide)
  | nop | unofficial op => exact .next ((Within.refl s).finish _ (by decide))

theorem exec_ran {i : Instr} {s t : State} (h : exec i s = .next t) : Ran i.writesReg i.writesFlag s t := by
  have hc := exec_completes i s
  rw [h] at hc
  cases hc with
  | next hran => exact hran

/-- Settles O30: A, X, Y and SP are the registers of `exec_ran`. -/
theorem registerWriters : Obligations.RegisterWriters := by
  intro i s t h
  have hran := exec_ran h
  exact ⟨hran.reg .a, hran.reg .x, hran.reg .y, hran.reg .sp, hran.nmiPending, hran.irqPending⟩

/-- Settles O31: the bits of P are the flags of `exec_ran`. -/
theorem flagWriters : Obligations.FlagWriters := by
  intro i s t h
  have hran := exec_ran h
  exact ⟨fun hnz => ⟨hran.flag .zero hnz, hran.flag .negative hnz⟩, hran.flag .carry, hran.flag .overflow,
    hran.flag .interruptDisable, hran.flag .decimal, hran.flag .brk rfl, hran.bit5⟩

/-! ## The invariant -/

/-- Polling keeps the invariant: an entry does, and clearing a pending flag touches neither P nor storage. -/
theorem pollInterrupts_inv {s : State} (h : s.Inv) : (pollInterrupts s).Inv := by
  have hentry : ∀ (u : State) (vec ret : Addr), u.Inv → (takeException vec ret false u).Inv := fun u vec ret =>
    (takeException_ran (R := fun _ => true) (F := fun _ => true) vec ret false rfl rfl).inv
  unfold pollInterrupts
  split
  · exact hentry { s with nmiPending := false } _ _ h
  · split
    · exact hentry { s with irqPending := false } _ _ h
    · exact h

theorem fetch_inv {s : State} (h : s.Inv) : (fetch s).2.Inv :=
  (Within.of_reads (R := fun _ => false) (F := fun _ => false) (fetch_reads s)).inv h

theorem exec_inv {i : Instr} {s t : State} (h : s.Inv) (ht : exec i s = .next t) : t.Inv := (exec_ran ht).inv h

/-- Settles O37: the poll, the fetch and the instruction each keep the invariant. -/
theorem stepKeepsInvariant : Obligations.StepKeepsInvariant :=
  fun _ _ hs ht => exec_inv (fetch_inv (pollInterrupts_inv hs)) ht

/-- Settles O38: nothing is stored, and P is 0x24. -/
theorem resetMeetsInvariant : Obligations.ResetMeetsInvariant := ⟨rfl, rfl⟩

end Sys2Proof.Machine

/-! ## The environment: state port, save-state image, inputs (10_state.md R40, R41) -/

namespace Sys2Proof.Machine

/-- Settles O18: each element is the field its write sets; P is stored, and read, with bit 5 as 1. -/
theorem statePortReadsBack : Obligations.StatePortReadsBack := by
  intro s w
  cases w with
  | p v => exact ⟨⟨BitVec.or_assoc v 0x20 0x20, rfl⟩, rfl, rfl⟩
  | _ => exact ⟨rfl, rfl, rfl⟩

/-! ### Storing P whole -/

theorem State.writeP_bit5 (v : Byte) (s : State) : (s.writeP v).flag .unused = true := by
  simp [State.flag, Flag.position]

theorem State.or_bit5_of_set {s : State} (h : s.flag .unused = true) : s.p ||| 0x20 = s.p := by
  have h5 : s.p.getLsbD 5 = true := h
  apply byte_ext <;> simp [h5]

/-! ### Every action keeps the invariant -/

theorem writePort_inv (w : PortWrite) {s : State} (h : s.Inv) : (writePort w s).Inv := by
  cases w with
  | p v => exact ⟨h.1, State.writeP_bit5 v s⟩
  | _ => exact h

theorem resetCore_inv {s : State} (h : s.Inv) : (resetCore s).Inv := by
  have hregs : State.Inv { s with
      a := 0x00, x := 0x00, y := 0x00, sp := Config.resetSp, p := Config.resetP
      nmiPending := false, irqPending := false } := ⟨h.1, show Config.resetP.getLsbD 5 = true by decide⟩
  exact ((((Within.refl (R := fun _ => false) (F := fun _ => false) _).memRead Config.resetVector).memRead _).ending _
    (by decide)).inv hregs

/-- A restored image writes P whole, and cells below 2048. -/
theorem restoreImage_inv {img : List Byte} {s u : State} (h : s.Inv) (hu : restoreImage img s = some u) : u.Inv := by
  unfold restoreImage at hu
  split at hu
  · split at hu
    · rename_i ram hlen
      cases hu
      exact ⟨Memory.wf_writeRun (by rw [hlen]; decide) h.1, State.writeP_bit5 _ _⟩
    · cases hu
  · cases hu

/-- Settles O39, action by action. -/
theorem environmentKeepsInvariant : Obligations.EnvironmentKeepsInvariant := by
  intro e s h
  cases e with
  | latchNmi | requestIrq | stepDevices tag | paused => exact h
  | port w => exact writePort_inv w h
  | reset => exact resetCore_inv h
  | restore img =>
    change ((restoreImage img s).getD s).Inv
    cases hu : restoreImage img s with
    | none => exact h
    | some u => exact restoreImage_inv h hu

/-! ### Saving and restoring -/

/-- The storage part of an image: cells 0 to 0x07FF (log 14). -/
def ramImage (m : Memory) : List Byte := (List.range ramImageSize).map m.read

@[simp] theorem ramImage_length (m : Memory) : (ramImage m).length = ramImageSize := by simp [ramImage]

/-- Storage with the first 2048 cells of another one. -/
theorem Memory.read_writeRun_ramImage (m m' : Memory) (k : Nat) :
    (m.writeRun 0 (ramImage m')).read k = if k < ramImageSize then m'.read k else m.read k := by
  rw [Memory.read_writeRun, if_pos (Nat.zero_le k), Nat.sub_zero]
  split
  · rename_i hk
    simp [ramImage, hk]
  · rename_i hk
    rw [List.getD_eq_default _ _ (by simpa using hk)]

/-- A canonical storage given its own cells again is itself. -/
theorem Memory.writeRun_ramImage_self {m : Memory} (h : m.wf = true) : m.writeRun 0 (ramImage m) = m :=
  Memory.ext (Memory.wf_writeRun (by simp [ramImageSize]) h) h fun k => by
    rw [Memory.read_writeRun_ramImage, ite_self]

/-- What restoring the image of `s` makes of `t`. -/
def restored (s t : State) : State :=
  { t with
    pc := s.pc, sp := s.sp, a := s.a, x := s.x, y := s.y, p := s.p ||| 0x20
    bus := { t.bus with mem := t.bus.mem.writeRun 0 (ramImage s.bus.mem) } }

theorem saveImage_eq (s : State) : saveImage s =
    lowByte s.pc :: highByte s.pc :: 0x00 :: 0x00 :: s.sp :: s.a :: s.x :: s.y :: s.readP :: ramImage s.bus.mem := by
  simp only [saveImage, ramImage, List.cons_append, List.nil_append]

theorem restoreImage_saveImage (s t : State) : restoreImage (saveImage s) t = some (restored s t) := by
  have hp : s.readP ||| 0x20 = s.p ||| 0x20 := BitVec.or_assoc s.p 0x20 0x20
  rw [saveImage_eq, restoreImage, if_pos (ramImage_length _), joinBytes_high_low]
  simp only [State.writeP, hp, restored]

theorem restored_history (s t : State) : (restored s t).bus.history = t.bus.history := by rw [restored]

theorem restored_mem_read (s t : State) (k : Nat) :
    (restored s t).bus.mem.read k = if k < 2048 then s.bus.mem.read k else t.bus.mem.read k := by
  rw [restored, Memory.read_writeRun_ramImage, ramImageSize]

theorem restored_self {s : State} (h : s.Inv) : restored s s = s := by
  rw [restored, Memory.writeRun_ramImage_self h.1, State.or_bit5_of_set h.2]

/-- Settles O19: by what restoring a saved image makes of a state. -/
theorem saveStateRoundTrip : Obligations.SaveStateRoundTrip := by
  intro s t
  refine ⟨by simp [saveImage_eq, ramImageSize], ⟨restored s t, restoreImage_saveImage s t,
    rfl, rfl, rfl, rfl, rfl, rfl, rfl, rfl, rfl, restored_history s t, restored_mem_read s t⟩, fun h => ?_⟩
  rw [restoreImage_saveImage, restored_self h]

end Sys2Proof.Machine

/-! ## What an instruction cannot learn

An `Edit` changes one part of a state: A, X, Y, the stored B, D, or the counter. Every operation that does not read
that part commutes with the edit, so an instruction that does not read it runs the same and leaves the edit in place,
or overwrites it (10_state.md R21 to R23, R31, R32, R36). -/

namespace Sys2Proof.Machine

/-- A change to one part of a state. -/
inductive Edit where
  /-- A holds `v` (R21). -/
  | a (v : Byte)
  /-- X holds `v` (R22). -/
  | x (v : Byte)
  /-- Y holds `v` (R23). -/
  | y (v : Byte)
  /-- The stored B is flipped (R32). -/
  | flipB
  /-- D is flipped (R31). -/
  | flipD
  /-- The counter is `n` higher (R36). -/
  | later (n : Nat)

namespace Edit

/-- The edited state. -/
def apply : Edit → State → State
  | .a v, s => { s with a := v }
  | .x v, s => { s with x := v }
  | .y v, s => { s with y := v }
  | .flipB, s => { s with p := s.p ^^^ 0x10 }
  | .flipD, s => { s with p := s.p ^^^ 0x08 }
  | .later n, s => { s with cycles := s.cycles + n }

/-- The register that is edited. -/
def onReg : Edit → Reg → Bool
  | .a _, .a | .x _, .x | .y _, .y => true
  | _, _ => false

/-- The flag that is edited. -/
def onFlag : Edit → Flag → Bool
  | .flipB, .brk | .flipD, .decimal => true
  | _, _ => false

/-- The mode indexes by the edited register. -/
def onIndex (e : Edit) (m : MemMode) : Bool := (m.usesX && e.onReg .x) || (m.usesY && e.onReg .y)

/-- The operand's mode indexes by the edited register. -/
def onRead (e : Edit) : ReadMode → Bool
  | .imm _ => false
  | .mem m => e.onIndex m

/-- What is flipped in P. -/
def mask : Edit → Byte
  | .flipB => 0x10
  | .flipD => 0x08
  | .a _ | .x _ | .y _ | .later _ => 0x00

/-- The instruction is a listed reader of what is edited; nothing reads B or the counter. -/
def readBy : Edit → Instr → Bool
  | .a _, i => i.readsA
  | .x _, i => i.readsX
  | .y _, i => i.readsY
  | .flipD, i => i.usesD
  | .flipB, _ | .later _, _ => false

/-- The instruction is a listed writer of the edited register. -/
def overwrittenBy : Edit → Instr → Bool
  | .a _, i => i.writesA
  | .x _, i => i.writesX
  | .y _, i => i.writesY
  | .flipB, _ | .flipD, _ | .later _, _ => false

theorem readBy_of_onReg {e : Edit} {r : Reg} (i : Instr) (h : e.onReg r = true) : e.readBy i = i.readsReg r := by
  cases e <;> cases r <;> simp [onReg] at h <;> rfl

/-- The edit, unless it was overwritten. -/
def remains (e : Edit) (gone : Bool) (s : State) : State := if gone then s else e.apply s

variable (e : Edit) (s : State)

/-! ### What an edit leaves alone -/

@[simp] theorem apply_pc : (e.apply s).pc = s.pc := by cases e <;> rfl

@[simp] theorem onFlag_carry : e.onFlag .carry = false := by cases e <;> rfl
@[simp] theorem onFlag_zero : e.onFlag .zero = false := by cases e <;> rfl
@[simp] theorem onFlag_interruptDisable : e.onFlag .interruptDisable = false := by cases e <;> rfl
@[simp] theorem onFlag_overflow : e.onFlag .overflow = false := by cases e <;> rfl
@[simp] theorem onFlag_negative : e.onFlag .negative = false := by cases e <;> rfl
@[simp] theorem onReg_sp : e.onReg .sp = false := by cases e <;> rfl

variable {e}

theorem getReg_apply {r : Reg} (h : e.onReg r = false) : (e.apply s).getReg r = s.getReg r := by
  cases e <;> cases r <;> simp [onReg] at h <;> rfl

theorem mask_bit (f : Flag) : e.mask.getLsbD f.position = e.onFlag f := by
  cases e with
  | flipB | flipD => cases f <;> rfl
  | _ => simp [mask, onFlag]

theorem apply_p : (e.apply s).p = s.p ^^^ e.mask := by
  cases e <;> simp [apply, mask]

theorem flag_apply {f : Flag} (h : e.onFlag f = false) : (e.apply s).flag f = s.flag f := by
  rw [State.flag, apply_p, BitVec.getLsbD_xor, mask_bit, h, Bool.xor_false, State.flag]

/-! ### Every operation commutes with an edit of what it does not read -/

theorem setReg_apply (r : Reg) (v : Byte) : (e.apply s).setReg r v = e.remains (e.onReg r) (s.setReg r v) := by
  cases e <;> cases r <;> rfl

/-- Writing one bit and flipping another commute. -/
theorem setBit_xor {k p : Byte} {n : Nat} (b : Bool) (hn : n < 8) (hk : k.getLsbD n = false) :
    setBit (p ^^^ k) n b = setBit p n b ^^^ k := by
  apply BitVec.eq_of_getLsbD_eq
  intro j _
  rw [setBit_getLsbD _ _ _ _ hn, BitVec.getLsbD_xor, BitVec.getLsbD_xor, setBit_getLsbD _ _ _ _ hn]
  by_cases hj : j = n
  · subst hj
    simp [hk]
  · simp [hj]

theorem setFlag_apply {f : Flag} (b : Bool) (h : e.onFlag f = false) :
    (e.apply s).setFlag f b = e.apply (s.setFlag f b) := by
  have hset := setBit_xor (p := s.p) b f.position_lt ((mask_bit f).trans h)
  cases e with
  | flipB | flipD => simp only [apply, State.setFlag, mask] at hset ⊢; rw [hset]
  | _ => rfl

theorem setNZ_apply (v : Byte) : setNZ v (e.apply s) = e.apply (setNZ v s) := by
  simp [setNZ, setFlag_apply]

theorem setPc_apply (w : Addr) : { e.apply s with pc := w } = e.apply { s with pc := w } := by cases e <;> rfl

theorem finish_apply (len cost : Nat) : finish len cost (e.apply s) = e.apply (finish len cost s) := by
  cases e with
  | later n => simp only [apply, finish, Nat.add_right_comm]
  | _ => rfl

theorem finishAt_apply (w : Addr) (cost : Nat) : finishAt w cost (e.apply s) = e.apply (finishAt w cost s) := by
  cases e with
  | later n => simp only [apply, finishAt, Nat.add_right_comm]
  | _ => rfl

theorem memRead_apply (a : Addr) : memRead a (e.apply s) = ((memRead a s).1, e.apply (memRead a s).2) := by
  cases e <;> rfl

theorem memWrite_apply (a : Addr) (v : Byte) : memWrite a v (e.apply s) = e.apply (memWrite a v s) := by
  cases e <;> rfl

theorem read16_apply (a : Addr) : read16 a (e.apply s) = ((read16 a s).1, e.apply (read16 a s).2) := by
  simp only [read16, memRead_apply]

theorem push_apply (v : Byte) : push v (e.apply s) = e.apply (push v s) := by cases e <;> rfl

theorem push16_apply (w : Addr) : push16 w (e.apply s) = e.apply (push16 w s) := by simp only [push16, push_apply]

theorem pull_apply : pull (e.apply s) = ((pull s).1, e.apply (pull s).2) := by cases e <;> rfl

theorem pull16_apply : pull16 (e.apply s) = ((pull16 s).1, e.apply (pull16 s).2) := by simp only [pull16, pull_apply]

/-- The pushed status byte holds neither the stored B nor anything else of the edit (R34). -/
theorem pushImage_apply (b : Bool) (hd : e.onFlag .decimal = false) : pushImage (e.apply s).p b = pushImage s.p b := by
  cases e with
  | flipB =>
    have hflip : (s.p ^^^ 0x10) &&& 0xCF = s.p &&& 0xCF := by apply byte_ext <;> simp
    simp only [apply, pushImage, hflip]
  | flipD => cases hd
  | _ => rfl

/-- Pulling a status byte keeps the stored B, flipped or not (R35). -/
theorem pullStatus_apply (v : Byte) (hd : e.onFlag .decimal = false) :
    { e.apply s with p := pullImage v (e.apply s).p } = e.apply { s with p := pullImage v s.p } := by
  cases e with
  | flipB =>
    have hkept : ∀ w p : Byte, pullImage w (p ^^^ 0x10) = pullImage w p ^^^ 0x10 := by
      intro w p
      apply byte_ext <;> simp [pullImage]
    simp only [apply, hkept]
  | flipD => cases hd
  | _ => rfl

theorem takeException_apply (vec ret : Addr) (b : Bool) (hd : e.onFlag .decimal = false) :
    takeException vec ret b (e.apply s) = e.apply (takeException vec ret b s) := by
  simp only [takeException, push16_apply, pushImage_apply _ _ hd, push_apply,
    setFlag_apply _ _ (onFlag_interruptDisable e), read16_apply, finishAt_apply]

theorem returnFromException_apply (hd : e.onFlag .decimal = false) :
    returnFromException (e.apply s) = e.apply (returnFromException s) := by
  simp only [returnFromException, pull_apply, pullStatus_apply _ _ hd, pull16_apply, setPc_apply]

theorem readJumpPointer_apply (w : Addr) :
    readJumpPointer w (e.apply s) = ((readJumpPointer w s).1, e.apply (readJumpPointer w s).2) := by
  simp only [readJumpPointer, memRead_apply]

theorem readZeroPagePointer_apply (z : Byte) :
    readZeroPagePointer z (e.apply s) = ((readZeroPagePointer z s).1, e.apply (readZeroPagePointer z s).2) := by
  simp only [readZeroPagePointer, memRead_apply]

/-- The effective address is the same, unless the mode indexes by the edited register. -/
theorem locate_apply {m : MemMode} (h : e.onIndex m = false) :
    locate m (e.apply s) = { locate m s with st := e.apply (locate m s).st } := by
  simp only [onIndex, Bool.or_eq_false_iff, Bool.and_eq_false_imp] at h
  obtain ⟨hx, hy⟩ := h
  have hX : m.usesX = true → (e.apply s).x = s.x := fun hm => getReg_apply (r := .x) s (hx hm)
  have hY : m.usesY = true → (e.apply s).y = s.y := fun hm => getReg_apply (r := .y) s (hy hm)
  cases m with
  | zp b | abs w => rfl
  | zpx b => simp only [locate, hX rfl]
  | zpy b => simp only [locate, hY rfl]
  | absx w => simp only [locate, indexed, hX rfl]
  | absy w => simp only [locate, indexed, hY rfl]
  | indx b => simp only [locate, hX rfl, readZeroPagePointer_apply]
  | indy b => simp only [locate, indexed, hY rfl, readZeroPagePointer_apply]

theorem readOperand_apply {m : ReadMode} (h : e.onRead m = false) :
    readOperand m (e.apply s) = { readOperand m s with st := e.apply (readOperand m s).st } := by
  cases m with
  | imm v => rfl
  | mem mm => simp only [readOperand, readMem, locate_apply s (m := mm) h, memRead_apply]

theorem setA_apply (v : Byte) (h : e.onReg .a = false) : { e.apply s with a := v } = e.apply { s with a := v } := by
  have hset := setReg_apply (e := e) s .a v
  rw [h] at hset
  exact hset

theorem addToA_apply (v : Byte) (h : e.onReg .a = false) : addToA v (e.apply s) = e.apply (addToA v s) := by
  have ha : (e.apply s).a = s.a := getReg_apply (r := .a) s h
  simp only [addToA, ha, flag_apply _ (onFlag_carry e), setA_apply _ _ h, setFlag_apply _ _ (onFlag_carry e),
    setFlag_apply _ _ (onFlag_overflow e), setNZ_apply]

theorem compareFlags_apply (r v : Byte) : compareFlags r v (e.apply s) = e.apply (compareFlags r v s) := by
  simp only [compareFlags, setFlag_apply _ _ (onFlag_carry e), setNZ_apply]

theorem bitFlags_apply (v : Byte) (h : e.onReg .a = false) : bitFlags v (e.apply s) = e.apply (bitFlags v s) := by
  have ha : (e.apply s).a = s.a := getReg_apply (r := .a) s h
  simp only [bitFlags, ha, setFlag_apply _ _ (onFlag_zero e), setFlag_apply _ _ (onFlag_negative e),
    setFlag_apply _ _ (onFlag_overflow e)]

theorem setNZ_remains (gone : Bool) (v : Byte) : setNZ v (e.remains gone s) = e.remains gone (setNZ v s) := by
  cases gone with
  | false => exact setNZ_apply s v
  | true => rfl

theorem finish_remains (gone : Bool) (len cost : Nat) :
    finish len cost (e.remains gone s) = e.remains gone (finish len cost s) := by
  cases gone with
  | false => exact finish_apply s len cost
  | true => rfl

@[simp] theorem remains_false : e.remains false s = e.apply s := rfl

end Edit

/-! ### Runs that ignore an edit -/

/-- Run from the edited state, `run` answers the same next state, with the edit in place or gone. -/
def Ignores (e : Edit) (gone : Bool) (run : State → Result) : Prop :=
  ∀ s, ∃ t, run s = .next t ∧ run (e.apply s) = .next (e.remains gone t)

section
open Edit
variable {e : Edit}

theorem Ignores.of_eq {gone gone' : Bool} {run : State → Result} (h : Ignores e gone run) (hg : gone' = gone) :
    Ignores e gone' run := hg ▸ h

/-- A run that ends in the next state of a function which commutes with the edit. -/
theorem ignores_of_commutes {gone : Bool} {f : State → State} (h : ∀ s, f (e.apply s) = e.remains gone (f s)) :
    Ignores e gone (fun s => .next (f s)) :=
  fun s => ⟨f s, rfl, congrArg _ (h s)⟩

theorem withOperand_ignores {gone : Bool} {m : ReadMode} {f : Byte → State → State}
    (hm : e.onRead m = false) (hf : ∀ v s, f v (e.apply s) = e.remains gone (f v s)) :
    Ignores e gone (withOperand m f) :=
  ignores_of_commutes fun s => by simp only [readOperand_apply s hm, hf, finish_remains]

theorem loadReg_ignores (r : Reg) {m : ReadMode} (hm : e.onRead m = false) :
    Ignores e (e.onReg r) (loadReg r m) :=
  withOperand_ignores (f := fun v s => setNZ v (s.setReg r v)) hm fun v s => by rw [setReg_apply, setNZ_remains]

theorem logicA_ignores (f : Byte → Byte → Byte) {m : ReadMode} (hm : e.onRead m = false)
    (ha : e.onReg .a = false) : Ignores e (e.onReg .a) (logicA f m) := by
  rw [ha]
  refine withOperand_ignores (f := fun v s => setNZ (f s.a v) { s with a := f s.a v }) hm fun v s => ?_
  have hA : (e.apply s).a = s.a := getReg_apply (r := .a) s ha
  rw [hA, setA_apply _ _ ha, setNZ_apply, remains_false]

theorem addToA_ignores (f : Byte → Byte) {m : ReadMode} (hm : e.onRead m = false)
    (ha : e.onReg .a = false) : Ignores e (e.onReg .a) (withOperand m fun v s => addToA (f v) s) := by
  rw [ha]
  exact withOperand_ignores hm fun v s => addToA_apply s (f v) ha

theorem compareReg_ignores {r : Reg} {m : ReadMode} (hm : e.onRead m = false)
    (hr : e.onReg r = false) : Ignores e false (compareReg r m) :=
  withOperand_ignores (f := fun v s => compareFlags (s.getReg r) v s) hm fun v s => by
    rw [getReg_apply s hr, compareFlags_apply, remains_false]

theorem storeReg_ignores {r : Reg} {m : MemMode} (hm : e.onIndex m = false) (hr : e.onReg r = false) :
    Ignores e false (storeReg r m) :=
  ignores_of_commutes fun s => by
    simp only [locate_apply s hm, getReg_apply _ hr, memWrite_apply, finish_apply, remains_false]

theorem transferNZ_ignores {src : Reg} (dst : Reg) (hsrc : e.onReg src = false) :
    Ignores e (e.onReg dst) (transferNZ src dst) :=
  ignores_of_commutes fun s => by rw [getReg_apply s hsrc, setReg_apply, setNZ_remains, finish_remains]

theorem updateReg_ignores {r : Reg} (g : Byte → Byte) (hr : e.onReg r = false) :
    Ignores e (e.onReg r) (fun s => updateReg r (g (s.getReg r)) s) :=
  ignores_of_commutes fun s => by rw [getReg_apply s hr, setReg_apply, setNZ_remains, finish_remains]

theorem modifyMem_ignores (f : Byte → Byte) {m : MemMode} (hm : e.onIndex m = false) :
    Ignores e false (modifyMem f m) :=
  ignores_of_commutes fun s => by
    simp only [locate_apply s hm, memRead_apply, memWrite_apply, setNZ_apply, finish_apply, remains_false]

theorem shift_acc_ignores (f : Byte → Bool → Shifted) (ha : e.onReg .a = false) :
    Ignores e (e.onReg .a) (shift f .acc) :=
  ignores_of_commutes fun s => by
    have hA : (e.apply s).a = s.a := getReg_apply (r := .a) s ha
    simp only [hA, ha, flag_apply _ (onFlag_carry e), setFlag_apply _ _ (onFlag_carry e), setA_apply _ _ ha, setNZ_apply,
      finish_apply, remains_false]

theorem shift_mem_ignores (f : Byte → Bool → Shifted) {m : MemMode} (hm : e.onIndex m = false) :
    Ignores e false (shift f (.mem m)) :=
  ignores_of_commutes fun s => by
    simp only [locate_apply s hm, memRead_apply, flag_apply _ (onFlag_carry e), setFlag_apply _ _ (onFlag_carry e),
      memWrite_apply, setNZ_apply, finish_apply, remains_false]

theorem branchIf_ignores {f : Flag} (g : Bool → Bool) (off : Byte) (hf : e.onFlag f = false) :
    Ignores e false (fun s => branchIf (g (s.flag f)) off s) :=
  ignores_of_commutes fun s => by simp only [flag_apply s hf, apply_pc, finishAt_apply, remains_false]

theorem writeFlag_ignores {f : Flag} (b : Bool) (hf : e.onFlag f = false) : Ignores e false (writeFlag f b) :=
  ignores_of_commutes fun s => by rw [setFlag_apply s b hf, finish_apply, remains_false]

theorem execJmp_ignores (m : JumpMode) : Ignores e false (execJmp m) := by
  cases m with
  | abs w => exact ignores_of_commutes fun s => finishAt_apply s w 3
  | ind w => exact ignores_of_commutes fun s => by simp only [readJumpPointer_apply, finishAt_apply, remains_false]

theorem execTxs_ignores (hx : e.onReg .x = false) : Ignores e false execTxs :=
  ignores_of_commutes fun s => by
    have hX : (e.apply s).x = s.x := getReg_apply (r := .x) s hx
    rw [hX, setReg_apply, onReg_sp, remains_false, finish_apply, remains_false]

theorem execPha_ignores (ha : e.onReg .a = false) : Ignores e false execPha :=
  ignores_of_commutes fun s => by
    have hA : (e.apply s).a = s.a := getReg_apply (r := .a) s ha
    rw [hA, push_apply, finish_apply, remains_false]

theorem execPhp_ignores (hd : e.onFlag .decimal = false) : Ignores e false execPhp :=
  ignores_of_commutes fun s => by rw [pushImage_apply s true hd, push_apply, finish_apply, remains_false]

theorem execPla_ignores : Ignores e (e.onReg .a) execPla :=
  ignores_of_commutes fun s => by simp only [pull_apply, setReg_apply, setNZ_remains, finish_remains]

theorem execPlp_ignores (hd : e.onFlag .decimal = false) : Ignores e false execPlp :=
  ignores_of_commutes fun s => by simp only [pull_apply, pullStatus_apply _ _ hd, finish_apply, remains_false]

theorem execJsr_ignores (w : Addr) : Ignores e false (execJsr w) :=
  ignores_of_commutes fun s => by rw [apply_pc, push16_apply, finishAt_apply, remains_false]

theorem execRts_ignores : Ignores e false execRts :=
  ignores_of_commutes fun s => by simp only [pull16_apply, finishAt_apply, remains_false]

theorem execBrk_ignores (hd : e.onFlag .decimal = false) : Ignores e false execBrk :=
  ignores_of_commutes fun s => by rw [apply_pc, takeException_apply _ _ _ _ hd, remains_false]

theorem execRti_ignores (hd : e.onFlag .decimal = false) : Ignores e false execRti :=
  ignores_of_commutes fun s => by
    simp only [returnFromException_apply _ hd, apply_pc, finishAt_apply, remains_false]

end

/-! ### What an instruction that is no reader ignores -/

theorem usesX_of_readsX {i : Instr} {m : MemMode} (h : i.readsX = false) (hm : i.memMode = some m) : m.usesX = false := by
  unfold Instr.readsX at h
  split at h
  case h_7 => simpa [Instr.indexesByX, hm] using h
  all_goals cases h

theorem usesY_of_readsY {i : Instr} {m : MemMode} (h : i.readsY = false) (hm : i.memMode = some m) : m.usesY = false := by
  unfold Instr.readsY at h
  split at h
  case h_6 => simpa [Instr.indexesByY, hm] using h
  all_goals cases h

section
variable {e : Edit} {i : Instr} (h : e.readBy i = false)
include h

theorem Edit.onIndex_of_readBy {m : MemMode} (hm : i.memMode = some m) : e.onIndex m = false := by
  cases e with
  | x v => simp [onIndex, onReg, usesX_of_readsX h hm]
  | y v => simp [onIndex, onReg, usesY_of_readsY h hm]
  | _ => simp [onIndex, onReg]

theorem Edit.onRead_of_readBy (mk : ReadMode → Instr) {m : ReadMode} (hi : i = mk m)
    (hmk : ∀ mm, (mk (.mem mm)).memMode = some mm) : e.onRead m = false := by
  subst hi
  cases m with
  | imm v => rfl
  | mem mm => exact onIndex_of_readBy h (hmk mm)

theorem Edit.onReg_of_readBy (r : Reg) (hr : i.readsReg r = true) : e.onReg r = false := by
  cases hon : e.onReg r with
  | false => rfl
  | true =>
    rw [readBy_of_onReg i hon, hr] at h
    cases h

theorem Edit.onDecimal_of_readBy (hd : i.usesD = true) : e.onFlag .decimal = false := by
  cases e with
  | flipD => exact absurd (h.symm.trans hd) Bool.false_ne_true
  | _ => rfl

/-- An instruction that is not a listed reader of what is edited ignores the edit. -/
theorem exec_ignores : Ignores e (e.overwrittenBy i) (exec i) := by
  have hm : ∀ m, i.memMode = some m → e.onIndex m = false := fun _ => Edit.onIndex_of_readBy h
  have hread := fun mk m => Edit.onRead_of_readBy h mk (m := m)
  have hr := Edit.onReg_of_readBy h
  have hd := Edit.onDecimal_of_readBy h
  cases i with
  | lda m => exact (loadReg_ignores .a <| hread .lda m rfl fun _ => rfl).of_eq (by cases e <;> rfl)
  | ldx m => exact (loadReg_ignores .x <| hread .ldx m rfl fun _ => rfl).of_eq (by cases e <;> rfl)
  | ldy m => exact (loadReg_ignores .y <| hread .ldy m rfl fun _ => rfl).of_eq (by cases e <;> rfl)
  | sta m => exact (storeReg_ignores (hm m rfl) (hr .a rfl)).of_eq (by cases e <;> rfl)
  | stx m => exact (storeReg_ignores (hm m rfl) (hr .x rfl)).of_eq (by cases e <;> rfl)
  | sty m => exact (storeReg_ignores (hm m rfl) (hr .y rfl)).of_eq (by cases e <;> rfl)
  | tax => exact (transferNZ_ignores .x (hr .a rfl)).of_eq (by cases e <;> rfl)
  | tay => exact (transferNZ_ignores .y (hr .a rfl)).of_eq (by cases e <;> rfl)
  | tsx => exact (transferNZ_ignores .x (Edit.onReg_sp e)).of_eq (by cases e <;> rfl)
  | txa => exact (transferNZ_ignores .a (hr .x rfl)).of_eq (by cases e <;> rfl)
  | tya => exact (transferNZ_ignores .a (hr .y rfl)).of_eq (by cases e <;> rfl)
  | txs => exact (execTxs_ignores (hr .x rfl)).of_eq (by cases e <;> rfl)
  | pha => exact (execPha_ignores (hr .a rfl)).of_eq (by cases e <;> rfl)
  | php => exact (execPhp_ignores (hd rfl)).of_eq (by cases e <;> rfl)
  | pla => exact execPla_ignores.of_eq (by cases e <;> rfl)
  | plp => exact (execPlp_ignores (hd rfl)).of_eq (by cases e <;> rfl)
  | adc m => exact (addToA_ignores id (hread .adc m rfl fun _ => rfl) (hr .a rfl)).of_eq (by cases e <;> rfl)
  | sbc m => exact (addToA_ignores (· ^^^ 0xFF) (hread .sbc m rfl fun _ => rfl) (hr .a rfl)).of_eq (by cases e <;> rfl)
  | and m =>
    exact (logicA_ignores (fun a v => a &&& v) (hread .and m rfl fun _ => rfl) (hr .a rfl)).of_eq (by cases e <;> rfl)
  | ora m =>
    exact (logicA_ignores (fun a v => a ||| v) (hread .ora m rfl fun _ => rfl) (hr .a rfl)).of_eq (by cases e <;> rfl)
  | eor m =>
    exact (logicA_ignores (fun a v => a ^^^ v) (hread .eor m rfl fun _ => rfl) (hr .a rfl)).of_eq (by cases e <;> rfl)
  | cmp m => exact (compareReg_ignores (hread .cmp m rfl fun _ => rfl) (hr .a rfl)).of_eq (by cases e <;> rfl)
  | cpx m => exact (compareReg_ignores (hread .cpx m rfl fun _ => rfl) (hr .x rfl)).of_eq (by cases e <;> rfl)
  | cpy m => exact (compareReg_ignores (hread .cpy m rfl fun _ => rfl) (hr .y rfl)).of_eq (by cases e <;> rfl)
  | bit m =>
    exact (withOperand_ignores (m := .mem m) (hm m rfl) fun v s => Edit.bitFlags_apply s v (hr .a rfl)).of_eq
      (by cases e <;> rfl)
  | inc m => exact (modifyMem_ignores (fun v => v + 1) (hm m rfl)).of_eq (by cases e <;> rfl)
  | dec m => exact (modifyMem_ignores (fun v => v - 1) (hm m rfl)).of_eq (by cases e <;> rfl)
  | inx => exact (updateReg_ignores (fun v => v + 1) (hr .x rfl)).of_eq (by cases e <;> rfl)
  | dex => exact (updateReg_ignores (fun v => v - 1) (hr .x rfl)).of_eq (by cases e <;> rfl)
  | iny => exact (updateReg_ignores (fun v => v + 1) (hr .y rfl)).of_eq (by cases e <;> rfl)
  | dey => exact (updateReg_ignores (fun v => v - 1) (hr .y rfl)).of_eq (by cases e <;> rfl)
  | asl m | lsr m | rol m | ror m =>
    cases m with
    | acc => exact (shift_acc_ignores _ (hr .a rfl)).of_eq (by cases e <;> rfl)
    | mem m => exact (shift_mem_ignores _ (hm m rfl)).of_eq (by cases e <;> rfl)
  | jmp m => exact (execJmp_ignores m).of_eq (by cases e <;> rfl)
  | jsr w => exact (execJsr_ignores w).of_eq (by cases e <;> rfl)
  | rts => exact execRts_ignores.of_eq (by cases e <;> rfl)
  | bpl off => exact (branchIf_ignores not off (Edit.onFlag_negative e)).of_eq (by cases e <;> rfl)
  | bmi off => exact (branchIf_ignores id off (Edit.onFlag_negative e)).of_eq (by cases e <;> rfl)
  | bvc off => exact (branchIf_ignores not off (Edit.onFlag_overflow e)).of_eq (by cases e <;> rfl)
  | bvs off => exact (branchIf_ignores id off (Edit.onFlag_overflow e)).of_eq (by cases e <;> rfl)
  | bcc off => exact (branchIf_ignores not off (Edit.onFlag_carry e)).of_eq (by cases e <;> rfl)
  | bcs off => exact (branchIf_ignores id off (Edit.onFlag_carry e)).of_eq (by cases e <;> rfl)
  | bne off => exact (branchIf_ignores not off (Edit.onFlag_zero e)).of_eq (by cases e <;> rfl)
  | beq off => exact (branchIf_ignores id off (Edit.onFlag_zero e)).of_eq (by cases e <;> rfl)
  | brk => exact (execBrk_ignores (hd rfl)).of_eq (by cases e <;> rfl)
  | rti => exact (execRti_ignores (hd rfl)).of_eq (by cases e <;> rfl)
  | clc | sec => exact (writeFlag_ignores _ (Edit.onFlag_carry e)).of_eq (by cases e <;> rfl)
  | cli | sei => exact (writeFlag_ignores _ (Edit.onFlag_interruptDisable e)).of_eq (by cases e <;> rfl)
  | clv => exact (writeFlag_ignores _ (Edit.onFlag_overflow e)).of_eq (by cases e <;> rfl)
  | cld | sed => exact (writeFlag_ignores _ (hd rfl)).of_eq (by cases e <;> rfl)
  | nop | unofficial op =>
    exact (ignores_of_commutes fun s => Edit.finish_apply s 1 2).of_eq (by cases e <;> rfl)

end

/-- Settles O32: A is edited. -/
theorem accumulatorReaders : Obligations.AccumulatorReaders :=
  fun _ s v h => exec_ignores (e := .a v) h s

/-- Settles O33: X is edited, or Y. -/
theorem indexRegisterReaders : Obligations.IndexRegisterReaders :=
  fun _ s v => ⟨fun h => exec_ignores (e := .x v) h s, fun h => exec_ignores (e := .y v) h s⟩

/-- Settles O34: B is flipped, which no instruction reads. -/
theorem breakFlagIsNeverRead : Obligations.BreakFlagIsNeverRead :=
  fun i s => exec_ignores (e := .flipB) (i := i) rfl s

/-- Settles O35: D is flipped. -/
theorem decimalFlagHasNoEffect : Obligations.DecimalFlagHasNoEffect :=
  fun _ s h => exec_ignores (e := .flipD) h s

/-- Settles O36: the counter is edited, which no instruction reads; that it rises is `exec_ran`. -/
theorem cycleCounterIsNeverRead : Obligations.CycleCounterIsNeverRead := by
  intro i s n
  obtain ⟨t, ht, hlater⟩ := exec_ignores (e := .later n) (i := i) rfl s
  exact ⟨t, ht, (exec_ran ht).cycles_lt, hlater⟩

end Sys2Proof.Machine

/-! ## What an instruction can do to memory

`Bus.ReadsTo b c` says that the bus `c` is `b` after reads. An instruction that stores nothing ends on such a bus; a
store or read-modify-write ends one write later (20_memory.md R54 to R56). -/

namespace Sys2Proof.Machine

/-- The bus `c` is `b` after reads: nothing but the record of accesses differs. -/
def Bus.ReadsTo (b c : Bus) : Prop :=
  ∃ new : List BusEvent, (∀ e ∈ new, ∃ a v, e = .read a v) ∧ c = { b with history := new ++ b.history }

/-- The answer is a next state whose bus is `b` after reads. -/
inductive ReadsOnly (b : Bus) : Result → Prop where
  | next {t : State} (h : b.ReadsTo t.bus) : ReadsOnly b (.next t)

/-- The answer is a next state whose bus is `b` after reads and then one write, at `ea`. -/
inductive WritesOnce (b : Bus) (ea : Addr) : Result → Prop where
  | next {t : State} {c : Bus} {v : Byte} (hc : b.ReadsTo c) (ht : t.bus = c.write ea v) : WritesOnce b ea (.next t)

/-! ### Reads -/

theorem Bus.ReadsTo.refl (b : Bus) : b.ReadsTo b := ⟨[], by simp, rfl⟩

theorem Bus.ReadsTo.afterRead {b c : Bus} (h : b.ReadsTo c) (a : Addr) : b.ReadsTo (c.afterRead a) := by
  obtain ⟨new, hnew, rfl⟩ := h
  exact ⟨_ :: new, List.forall_mem_cons.mpr ⟨⟨_, _, rfl⟩, hnew⟩, rfl⟩

theorem Bus.ReadsTo.platform_eq {b c : Bus} (h : b.ReadsTo c) : c.platform = b.platform := by
  obtain ⟨new, -, rfl⟩ := h
  rfl

theorem Bus.ReadsTo.mem_eq {b c : Bus} (h : b.ReadsTo c) : c.mem = b.mem := by
  obtain ⟨new, -, rfl⟩ := h
  rfl

theorem Bus.ReadsTo.peek_eq {b c : Bus} (h : b.ReadsTo c) (a : Addr) : c.peek a = b.peek a := by
  obtain ⟨new, -, rfl⟩ := h
  rfl

theorem Bus.ReadsTo.history_eq {b c : Bus} (h : b.ReadsTo c) :
    ∃ new, c.history = new ++ b.history ∧ ∀ e ∈ new, ∃ a v, e = BusEvent.read a v := by
  obtain ⟨new, hnew, rfl⟩ := h
  exact ⟨new, rfl, hnew⟩

theorem ReadsOf.bus {s t : State} (h : ReadsOf s t) : s.bus.ReadsTo t.bus := by
  obtain ⟨new, hnew, rfl⟩ := h
  exact ⟨new, hnew, rfl⟩

/-! ### Instructions that store nothing -/

section
variable {s : State}

theorem withOperand_readsOnly (m : ReadMode) {f : Byte → State → State} (hf : ∀ v t, (f v t).bus = t.bus) :
    ReadsOnly s.bus (withOperand m f s) :=
  .next (by rw [finish_bus, hf]; exact (readOperand_reads m s).bus)

theorem loadReg_readsOnly (r : Reg) (m : ReadMode) : ReadsOnly s.bus (loadReg r m s) :=
  withOperand_readsOnly m fun v t => State.setReg_bus r v t

theorem logicA_readsOnly (f : Byte → Byte → Byte) (m : ReadMode) : ReadsOnly s.bus (logicA f m s) :=
  withOperand_readsOnly m fun _ _ => rfl

theorem compareReg_readsOnly (r : Reg) (m : ReadMode) : ReadsOnly s.bus (compareReg r m s) :=
  withOperand_readsOnly m fun _ _ => rfl

theorem ReadsOnly.of_bus_eq {t : State} (h : t.bus = s.bus) : ReadsOnly s.bus (.next t) :=
  .next (h ▸ .refl _)

theorem updateReg_readsOnly (r : Reg) (v : Byte) : ReadsOnly s.bus (updateReg r v s) :=
  .of_bus_eq (State.setReg_bus r v s)

theorem transferNZ_readsOnly (src dst : Reg) : ReadsOnly s.bus (transferNZ src dst s) :=
  updateReg_readsOnly dst (s.getReg src)

theorem execJmp_readsOnly (m : JumpMode) : ReadsOnly s.bus (execJmp m s) := by
  cases m with
  | abs w => exact .of_bus_eq rfl
  | ind w => exact .next (((Bus.ReadsTo.refl s.bus).afterRead w).afterRead _)

theorem pull_readsTo : s.bus.ReadsTo (pull s).2.bus := (Bus.ReadsTo.refl s.bus).afterRead _

theorem pull16_readsTo : s.bus.ReadsTo (pull16 s).2.bus := pull_readsTo.afterRead _

theorem returnFromException_readsTo : s.bus.ReadsTo (returnFromException s).bus := by
  rw [returnFromException_eq]
  exact (((Bus.ReadsTo.refl s.bus).afterRead _).afterRead _).afterRead _

end

/-- An instruction outside the list of R55 makes only reads. -/
theorem exec_readsOnly {i : Instr} (s : State) (h : i.writesMemory = false) : ReadsOnly s.bus (exec i s) := by
  cases i with
  | sta _ | stx _ | sty _ | inc _ | dec _ | pha | php | jsr _ | brk => cases h
  | lda m => exact loadReg_readsOnly .a m
  | ldx m => exact loadReg_readsOnly .x m
  | ldy m => exact loadReg_readsOnly .y m
  | tax => exact transferNZ_readsOnly .a .x
  | tay => exact transferNZ_readsOnly .a .y
  | tsx => exact transferNZ_readsOnly .sp .x
  | txa => exact transferNZ_readsOnly .x .a
  | tya => exact transferNZ_readsOnly .y .a
  | pla | plp => exact .next pull_readsTo
  | adc m => exact withOperand_readsOnly m addToA_bus
  | sbc m => exact withOperand_readsOnly (f := fun v t => addToA (v ^^^ 0xFF) t) m fun _ _ => rfl
  | and m | ora m | eor m => exact logicA_readsOnly _ m
  | cmp m => exact compareReg_readsOnly .a m
  | cpx m => exact compareReg_readsOnly .x m
  | cpy m => exact compareReg_readsOnly .y m
  | bit m => exact withOperand_readsOnly (.mem m) bitFlags_bus
  | inx | dex => exact updateReg_readsOnly .x _
  | iny | dey => exact updateReg_readsOnly .y _
  | asl m | lsr m | rol m | ror m =>
    cases m with
    | acc => exact .of_bus_eq rfl
    | mem m => cases h
  | jmp m => exact execJmp_readsOnly m
  | rts => exact .next pull16_readsTo
  | rti => exact .next returnFromException_readsTo
  | bpl _ | bmi _ | bvc _ | bvs _ | bcc _ | bcs _ | bne _ | beq _ => exact .of_bus_eq rfl
  | txs | clc | sec | cli | sei | clv | cld | sed | nop | unofficial _ => exact .of_bus_eq rfl

/-- Settles O27: reads change no byte, and an instruction outside the list of R55 makes nothing else. -/
theorem nonStoringKeepsMemory : Obligations.NonStoringKeepsMemory := by
  intro i s t hi ht
  have hexec := exec_readsOnly s hi
  rw [ht] at hexec
  cases hexec with
  | next h => exact ⟨⟨h.platform_eq, h.peek_eq⟩, h.history_eq⟩

/-! ### Stores and read-modify-writes -/

/-- The instructions that write the byte at their effective address: R103 to R105, R139, R140, R160 to R163. -/
def storesTo (m : MemMode) : List Instr :=
  [.sta m, .stx m, .sty m, .inc m, .dec m, .asl (.mem m), .lsr (.mem m), .rol (.mem m), .ror (.mem m)]

theorem storeReg_writesOnce (r : Reg) (m : MemMode) (s : State) :
    WritesOnce s.bus (locate m s).ea (storeReg r m s) := by
  rw [storeReg_eq]
  exact .next (locate_reads m s).bus rfl

theorem modifyMem_writesOnce (f : Byte → Byte) (m : MemMode) (s : State) :
    WritesOnce s.bus (locate m s).ea (modifyMem f m s) := by
  rw [modifyMem_eq]
  exact .next ((locate_reads m s).bus.afterRead _) rfl

theorem shift_mem_writesOnce (f : Byte → Bool → Shifted) (m : MemMode) (s : State) :
    WritesOnce s.bus (locate m s).ea (shift f (.mem m) s) := by
  rw [shift_mem_eq]
  exact .next ((locate_reads m s).bus.afterRead _) rfl

theorem exec_writesOnce {m : MemMode} {i : Instr} (s : State) (h : i ∈ storesTo m) :
    WritesOnce s.bus (locate m s).ea (exec i s) := by
  simp only [storesTo, List.mem_cons, List.not_mem_nil, or_false] at h
  obtain rfl | rfl | rfl | rfl | rfl | rfl | rfl | rfl | rfl := h
  · exact storeReg_writesOnce .a m s
  · exact storeReg_writesOnce .x m s
  · exact storeReg_writesOnce .y m s
  · exact modifyMem_writesOnce (fun v => v + 1) m s
  · exact modifyMem_writesOnce (fun v => v - 1) m s
  · exact shift_mem_writesOnce shiftAsl m s
  · exact shift_mem_writesOnce shiftLsr m s
  · exact shift_mem_writesOnce shiftRol m s
  · exact shift_mem_writesOnce shiftRor m s

/-- None of them is a listed writer of a register. -/
theorem writesReg_of_storesTo {m : MemMode} {i : Instr} (h : i ∈ storesTo m) (r : Reg) : i.writesReg r = false := by
  simp only [storesTo, List.mem_cons, List.not_mem_nil, or_false] at h
  obtain rfl | rfl | rfl | rfl | rfl | rfl | rfl | rfl | rfl := h <;> cases r <;> rfl

/-- Settles O28: the bus is that of `exec_writesOnce`, the registers and pending flags are those of `exec_ran`. -/
theorem storingKeepsOtherBytes : Obligations.StoringKeepsOtherBytes := by
  intro m i s t hi ht
  have hran := exec_ran ht
  have hreg := fun r => hran.reg r (writesReg_of_storesTo hi r)
  have hexec := exec_writesOnce s hi
  rw [ht] at hexec
  cases hexec with
  | @next _ c v hc hbus =>
    obtain ⟨reads, hhistory, hreads⟩ := hc.history_eq
    refine ⟨⟨?platform, ?peek⟩, ⟨v, reads, ?history, hreads, ?written⟩,
      hreg .a, hreg .x, hreg .y, hreg .sp, hran.nmiPending, hran.irqPending⟩
    case platform => rw [hbus, Bus.write_platform, hc.platform_eq]
    case peek =>
      intro a ha
      have hnot : c.platform.touches (locate m s).ea a = false := hc.platform_eq ▸ ha _ (List.mem_singleton_self _)
      rw [hbus, Bus.peek_write_of_not_touches v hnot, hc.peek_eq]
    case history => rw [hbus, Bus.write_history, hhistory]
    case written =>
      intro k hk
      have hram : c.platform.region (locate m s).ea = .ram k := hc.platform_eq ▸ hk
      rw [hbus, Bus.peek_write_ram v hram hram]

/-! ### The console's map -/

theorem Platform.region_nes_ram {a : Addr} (h : a.toNat < 0x2000) :
    Platform.nes.region a = .ram (a.toNat % 0x0800) := if_pos h

theorem Platform.region_nes_prg {a : Addr} (h : 0x8000 ≤ a.toNat) : Platform.nes.region a = .prg a.toNat := by
  rw [Platform.region, if_neg (by omega), if_neg (by omega)]

/-- No write in the program window touches an address below it. -/
theorem Platform.touches_nes_prg {w a : Addr} (hw : 0x8000 ≤ w.toNat) (ha : a.toNat < 0x8000) :
    Platform.nes.touches w a = false := by
  rw [Platform.touches, Platform.region_nes_prg hw]
  rcases hregion : Platform.nes.region a with k | k | _
  · rfl
  · simp only [Platform.region] at hregion
    split_ifs at hregion
  · rfl

/-- A write to the program window re-banks it and changes no stored byte (R54). -/
theorem Bus.write_prg {b : Bus} {a : Addr} {k : Nat} (v : Byte) (h : b.platform.region a = .prg k) :
    b.write a v = { b with prgRebanked := true, history := .write a v :: b.history } := by
  unfold Bus.write
  rw [h]

/-- Settles O20: both addresses name one RAM cell, so the load reads what the store wrote there. -/
theorem internalRamIsMirrored : Obligations.InternalRamIsMirrored := by
  intro s w w' hnes hw hw' hmod
  refine ⟨_, _, storeReg_eq .a (.abs w) s, loadReg_eq .a (.mem (.abs w')) _, ?_⟩
  have hcell : s.bus.platform.region w = .ram (w.toNat % 0x0800) := hnes ▸ Platform.region_nes_ram hw
  have hcell' : s.bus.platform.region w' = .ram (w.toNat % 0x0800) := by
    rw [hnes, hmod, Platform.region_nes_ram hw']
  exact Bus.answer_of_peek (Bus.peek_write_ram s.a hcell hcell')

/-- Settles O21: the one write is at the effective address, in the program window; O28 says what it leaves. -/
theorem prgStoreRebanksAndKeepsBytes : Obligations.PrgStoreRebanksAndKeepsBytes := by
  intro s m hnes hea
  have hexec : exec (.sta m) s = _ := storeReg_eq .a m s
  have hlocated := (locate_reads m s).bus
  have hprg : (locate m s).st.bus.platform.region (locate m s).ea = .prg (locate m s).ea.toNat := by
    rw [hlocated.platform_eq, hnes, Platform.region_nes_prg hea]
  refine ⟨_, hexec, ?mem, ?rebanked, ?below⟩
  case mem => rw [Bus.write_prg _ hprg, hlocated.mem_eq]
  case rebanked => rw [Bus.write_prg _ hprg]
  case below =>
    obtain ⟨⟨-, hpeek⟩, -⟩ := storingKeepsOtherBytes m _ s _ (List.mem_cons_self ..) hexec
    intro a ha
    refine hpeek a fun w hw => ?_
    rw [List.mem_singleton.mp hw, hnes, Platform.touches_nes_prg hea ha]

end Sys2Proof.Machine

/-! ## The opcode map, read both ways (30_encoding.md R70, R71, R85, R87, R88)

`i.withBytes b1 b2` keeps the mnemonic and address mode of `i` and takes its operand from the bytes `b1` and `b2`.
`decodeOpcode_of_opcode` reads the map along the instructions: the opcode byte of `i` decodes, with `b1` and `b2` after
it, to `i.withBytes b1 b2`. Since every byte is the opcode of some instruction, this is all that `decodeOpcode` does. -/

namespace Sys2Proof

/-! ### An instruction with other operand bytes -/

/-- The mode with its operand taken from these bytes, low byte first (R52, R70). -/
def MemMode.withBytes (b1 b2 : Byte) : MemMode → MemMode
  | .zp _ => .zp b1
  | .zpx _ => .zpx b1
  | .zpy _ => .zpy b1
  | .abs _ => .abs (joinBytes b2 b1)
  | .absx _ => .absx (joinBytes b2 b1)
  | .absy _ => .absy (joinBytes b2 b1)
  | .indx _ => .indx b1
  | .indy _ => .indy b1

/-- The same of a reading mode. -/
def ReadMode.withBytes (b1 b2 : Byte) : ReadMode → ReadMode
  | .imm _ => .imm b1
  | .mem m => .mem (m.withBytes b1 b2)

/-- The same of a shift mode. -/
def ShiftMode.withBytes (b1 b2 : Byte) : ShiftMode → ShiftMode
  | .acc => .acc
  | .mem m => .mem (m.withBytes b1 b2)

/-- The same of a jump. -/
def JumpMode.withBytes (b1 b2 : Byte) : JumpMode → JumpMode
  | .abs _ => .abs (joinBytes b2 b1)
  | .ind _ => .ind (joinBytes b2 b1)

/-- The instruction with its operand taken from these bytes: the mnemonic and the mode stay. -/
def Instr.withBytes (b1 b2 : Byte) : Instr → Instr
  | .lda m => .lda (m.withBytes b1 b2)
  | .ldx m => .ldx (m.withBytes b1 b2)
  | .ldy m => .ldy (m.withBytes b1 b2)
  | .sta m => .sta (m.withBytes b1 b2)
  | .stx m => .stx (m.withBytes b1 b2)
  | .sty m => .sty (m.withBytes b1 b2)
  | .adc m => .adc (m.withBytes b1 b2)
  | .sbc m => .sbc (m.withBytes b1 b2)
  | .and m => .and (m.withBytes b1 b2)
  | .ora m => .ora (m.withBytes b1 b2)
  | .eor m => .eor (m.withBytes b1 b2)
  | .cmp m => .cmp (m.withBytes b1 b2)
  | .bit m => .bit (m.withBytes b1 b2)
  | .cpx m => .cpx (m.withBytes b1 b2)
  | .cpy m => .cpy (m.withBytes b1 b2)
  | .inc m => .inc (m.withBytes b1 b2)
  | .dec m => .dec (m.withBytes b1 b2)
  | .asl m => .asl (m.withBytes b1 b2)
  | .lsr m => .lsr (m.withBytes b1 b2)
  | .rol m => .rol (m.withBytes b1 b2)
  | .ror m => .ror (m.withBytes b1 b2)
  | .jmp m => .jmp (m.withBytes b1 b2)
  | .jsr _ => .jsr (joinBytes b2 b1)
  | .bpl _ => .bpl b1
  | .bmi _ => .bmi b1
  | .bvc _ => .bvc b1
  | .bvs _ => .bvs b1
  | .bcc _ => .bcc b1
  | .bcs _ => .bcs b1
  | .bne _ => .bne b1
  | .beq _ => .beq b1
  | i => i

/-- The two instructions stand in one row of the opcode map. -/
structure Instr.SameRow (i j : Instr) : Prop where
  wf : i.wf = j.wf
  opcode : i.opcode = j.opcode
  length : i.length = j.length

theorem Instr.withBytes_sameRow (i : Instr) (b1 b2 : Byte) : (i.withBytes b1 b2).SameRow i := by
  cases i with
  | lda m | ldx m | ldy m | adc m | sbc m | and m | ora m | eor m | cmp m | cpx m | cpy m =>
    cases m with
    | imm v => exact ⟨rfl, rfl, rfl⟩
    | mem m => cases m <;> exact ⟨rfl, rfl, rfl⟩
  | asl m | lsr m | rol m | ror m =>
    cases m with
    | acc => exact ⟨rfl, rfl, rfl⟩
    | mem m => cases m <;> exact ⟨rfl, rfl, rfl⟩
  | sta m | stx m | sty m | bit m | inc m | dec m => cases m <;> exact ⟨rfl, rfl, rfl⟩
  | jmp m => cases m <;> exact ⟨rfl, rfl, rfl⟩
  | _ => exact ⟨rfl, rfl, rfl⟩

theorem wordBytesLe_joinBytes (hi lo : Byte) : wordBytesLe (joinBytes hi lo) = [lo, hi] :=
  congrArg₂ (fun l h => [l, h]) (lowByte_append hi lo) (highByte_append hi lo)

theorem MemMode.operandBytes_withBytes (m : MemMode) (b1 b2 : Byte) :
    (m.withBytes b1 b2).operandBytes = [b1, b2].take (1 + m.operandLength - 1) := by
  cases m with
  | zp _ | zpx _ | zpy _ | indx _ | indy _ => rfl
  | abs _ | absx _ | absy _ => exact wordBytesLe_joinBytes b2 b1

theorem ReadMode.operandBytes_withBytes (m : ReadMode) (b1 b2 : Byte) :
    (m.withBytes b1 b2).operandBytes = [b1, b2].take (m.length - 1) := by
  cases m with
  | imm v => rfl
  | mem m => exact m.operandBytes_withBytes b1 b2

theorem ShiftMode.operandBytes_withBytes (m : ShiftMode) (b1 b2 : Byte) :
    (m.withBytes b1 b2).operandBytes = [b1, b2].take (m.length - 1) := by
  cases m with
  | acc => rfl
  | mem m => exact m.operandBytes_withBytes b1 b2

/-- Of the two bytes put in, the encoder writes as many as the instruction is long after its opcode byte. -/
theorem Instr.operandBytes_withBytes (i : Instr) (b1 b2 : Byte) :
    (i.withBytes b1 b2).operandBytes = [b1, b2].take (i.length - 1) := by
  cases i with
  | lda m | ldx m | ldy m | adc m | sbc m | and m | ora m | eor m | cmp m | cpx m | cpy m =>
    exact m.operandBytes_withBytes b1 b2
  | sta m | stx m | sty m | bit m | inc m | dec m => exact m.operandBytes_withBytes b1 b2
  | asl m | lsr m | rol m | ror m => exact m.operandBytes_withBytes b1 b2
  | jmp m => cases m <;> exact wordBytesLe_joinBytes b2 b1
  | jsr w => exact wordBytesLe_joinBytes b2 b1
  | _ => rfl

theorem MemMode.withBytes_operandBytes (m : MemMode) :
    m.withBytes (m.operandBytes.getD 0 0) (m.operandBytes.getD 1 0) = m := by
  cases m with
  | zp b | zpx b | zpy b | indx b | indy b => rfl
  | abs w | absx w | absy w => exact congrArg _ (joinBytes_high_low w)

theorem ReadMode.withBytes_operandBytes (m : ReadMode) :
    m.withBytes (m.operandBytes.getD 0 0) (m.operandBytes.getD 1 0) = m := by
  cases m with
  | imm v => rfl
  | mem m => exact congrArg _ m.withBytes_operandBytes

theorem ShiftMode.withBytes_operandBytes (m : ShiftMode) :
    m.withBytes (m.operandBytes.getD 0 0) (m.operandBytes.getD 1 0) = m := by
  cases m with
  | acc => rfl
  | mem m => exact congrArg _ m.withBytes_operandBytes

/-- The operand bytes that the encoder writes are those that the operand is read from. -/
theorem Instr.withBytes_operandBytes (i : Instr) :
    i.withBytes (i.operandBytes.getD 0 0) (i.operandBytes.getD 1 0) = i := by
  cases i with
  | lda m | ldx m | ldy m | adc m | sbc m | and m | ora m | eor m | cmp m | cpx m | cpy m =>
    exact congrArg _ m.withBytes_operandBytes
  | sta m | stx m | sty m | bit m | inc m | dec m => exact congrArg _ m.withBytes_operandBytes
  | asl m | lsr m | rol m | ror m => exact congrArg _ m.withBytes_operandBytes
  | jmp m =>
    cases m with
    | abs w => exact congrArg (fun w => Instr.jmp (.abs w)) (joinBytes_high_low w)
    | ind w => exact congrArg (fun w => Instr.jmp (.ind w)) (joinBytes_high_low w)
  | jsr w => exact congrArg Instr.jsr (joinBytes_high_low w)
  | _ => rfl

/-! ### The rows of the map -/

/-- The opcode byte of an instruction decodes to the instruction, with the operand bytes put in. -/
theorem exists_opcode_decodeOpcode {i : Instr} (h : i.wf = true) :
    ∃ op, i.opcode = some op ∧ ∀ b1 b2, decodeOpcode op b1 b2 = i.withBytes b1 b2 := by
  cases i with
  | lda m | ldx m | ldy m | adc m | sbc m | and m | ora m | eor m | cmp m | cpx m | cpy m =>
    cases m with
    | imm v => exact ⟨_, rfl, fun _ _ => rfl⟩
    | mem m => cases m <;> cases h <;> exact ⟨_, rfl, fun _ _ => rfl⟩
  | asl m | lsr m | rol m | ror m =>
    cases m with
    | acc => exact ⟨_, rfl, fun _ _ => rfl⟩
    | mem m => cases m <;> cases h <;> exact ⟨_, rfl, fun _ _ => rfl⟩
  | sta m | stx m | sty m | bit m | inc m | dec m => cases m <;> cases h <;> exact ⟨_, rfl, fun _ _ => rfl⟩
  | jmp m => cases m <;> exact ⟨_, rfl, fun _ _ => rfl⟩
  | unofficial op =>
    have hmap (b1 b2 : Byte) : unofficialOpcodes.map (decodeOpcode · b1 b2) = unofficialOpcodes.map .unofficial := rfl
    exact ⟨op, rfl, fun b1 b2 => List.map_inj_left.mp (hmap b1 b2) op (List.contains_iff_mem.mp h)⟩
  | _ => exact ⟨_, rfl, fun _ _ => rfl⟩

theorem decodeOpcode_of_opcode {i : Instr} {op : Byte} (h : i.wf = true) (hop : i.opcode = some op) (b1 b2 : Byte) :
    decodeOpcode op b1 b2 = i.withBytes b1 b2 := by
  obtain ⟨op', hop', hdec⟩ := exists_opcode_decodeOpcode h
  rw [Option.some.inj (hop.symm.trans hop'), hdec]

/-- Every byte is the opcode of an instruction. -/
theorem decodeOpcode_zero_wf_opcode :
    ∀ op, (decodeOpcode op 0 0).wf = true ∧ (decodeOpcode op 0 0).opcode = some op := by
  decide +kernel

theorem opcodeLength_cases : ∀ op, opcodeLength op = 1 ∨ opcodeLength op = 2 ∨ opcodeLength op = 3 := by
  decide +kernel

/-- The operand bytes do nothing but fill the operand. -/
theorem decodeOpcode_eq_withBytes (op b1 b2 : Byte) :
    decodeOpcode op b1 b2 = (decodeOpcode op 0 0).withBytes b1 b2 := by
  obtain ⟨hwf, hop⟩ := decodeOpcode_zero_wf_opcode op
  exact decodeOpcode_of_opcode hwf hop b1 b2

theorem decodeOpcode_sameRow (op b1 b2 : Byte) : (decodeOpcode op b1 b2).SameRow (decodeOpcode op 0 0) := by
  rw [decodeOpcode_eq_withBytes]
  exact Instr.withBytes_sameRow _ b1 b2

theorem decodeOpcode_wf (op b1 b2 : Byte) : (decodeOpcode op b1 b2).wf = true :=
  (decodeOpcode_sameRow op b1 b2).wf.trans (decodeOpcode_zero_wf_opcode op).1

theorem decodeOpcode_opcode (op b1 b2 : Byte) : (decodeOpcode op b1 b2).opcode = some op :=
  (decodeOpcode_sameRow op b1 b2).opcode.trans (decodeOpcode_zero_wf_opcode op).2

theorem decodeOpcode_length (op b1 b2 : Byte) : (decodeOpcode op b1 b2).length = opcodeLength op :=
  (decodeOpcode_sameRow op b1 b2).length

theorem encode_of_opcode {i : Instr} {op : Byte} (h : i.opcode = some op) : encode i = op :: i.operandBytes := by
  simp only [encode, h]

theorem encode_decodeOpcode (op b1 b2 : Byte) :
    encode (decodeOpcode op b1 b2) = op :: [b1, b2].take (opcodeLength op - 1) := by
  rw [encode_of_opcode (decodeOpcode_opcode op b1 b2), decodeOpcode_eq_withBytes, Instr.operandBytes_withBytes,
    decodeOpcode_length]

theorem encode_decodeOpcode_length (op b1 b2 : Byte) : (encode (decodeOpcode op b1 b2)).length = opcodeLength op := by
  rw [encode_decodeOpcode]
  obtain h | h | h := opcodeLength_cases op <;> rw [h] <;> rfl

theorem Instr.operandBytes_length {i : Instr} {op : Byte} (h : i.wf = true) (hop : i.opcode = some op) :
    i.operandBytes.length + 1 = opcodeLength op := by
  have hi := (decodeOpcode_of_opcode h hop _ _).trans i.withBytes_operandBytes
  rw [← encode_decodeOpcode_length, hi, encode_of_opcode hop, List.length_cons]

/-! ### Lists of bytes -/

/-- An opcode byte followed by as many bytes as it asks for. -/
theorem decode_append {op : Byte} {bs : List Byte} (h : bs.length + 1 = opcodeLength op) (rest : List Byte) :
    decode (op :: bs ++ rest) = .ok (decodeOpcode op (bs.getD 0 0) (bs.getD 1 0), rest) := by
  match bs, h with
  | [], h => exact decode_one h.symm rest
  | [b1], h => exact decode_two h.symm b1 rest
  | [b1, b2], h => exact decode_three h.symm b1 b2 rest
  | _ :: _ :: _ :: _, h =>
    have := opcodeLength_cases op
    simp only [List.length_cons] at h
    omega

/-- Settles O1: the opcode byte finds the row, and the operand bytes put the operand back. -/
theorem decodeOfEncodeIsIdentity : Obligations.DecodeOfEncodeIsIdentity := by
  intro i rest h
  obtain ⟨op, hop, hdec⟩ := exists_opcode_decodeOpcode h
  rw [encode_of_opcode hop, decode_append (Instr.operandBytes_length h hop), hdec, i.withBytes_operandBytes]

/-- Whatever decodes is a row of the map, and the bytes read are the instruction's. -/
theorem exists_eq_encode_append {bytes rest : List Byte} {i : Instr} (h : decode bytes = .ok (i, rest)) :
    ∃ op b1 b2, i = decodeOpcode op b1 b2 ∧ bytes = encode i ++ rest := by
  obtain ⟨op, ⟨hlen, rfl, rfl⟩ | ⟨b1, hlen, rfl, rfl⟩ | ⟨b1, b2, hlen, rfl, rfl⟩⟩ := decode_ok h
  · exact ⟨op, 0, 0, rfl, by rw [encode_decodeOpcode, hlen]; rfl⟩
  · exact ⟨op, b1, 0, rfl, by rw [encode_decodeOpcode, hlen]; rfl⟩
  · exact ⟨op, b1, b2, rfl, by rw [encode_decodeOpcode, hlen]; rfl⟩

/-- Settles O2: every row of the map is well formed, and `exists_eq_encode_append` gives the bytes. -/
theorem encodeOfDecodeIsIdentity : Obligations.EncodeOfDecodeIsIdentity := by
  intro bytes rest i h
  obtain ⟨op, b1, b2, rfl, hbytes⟩ := exists_eq_encode_append h
  exact ⟨decodeOpcode_wf op b1 b2, hbytes⟩

/-- Settles O5: the length is that of the row, whatever the operand bytes are. -/
theorem lengthFollowsOpcodeByte : Obligations.LengthFollowsOpcodeByte := by
  refine ⟨decodeOpcode_length, fun bytes rest i h => ?_⟩
  obtain ⟨op, b1, b2, rfl, rfl⟩ := exists_eq_encode_append h
  have hrange := opcodeLength_cases op
  rw [decodeOpcode_length]
  refine ⟨?_, by omega, by omega, op, [b1, b2].take (opcodeLength op - 1) ++ rest, ?_, rfl⟩
  · rw [List.length_append, encode_decodeOpcode_length]
  · rw [encode_decodeOpcode, List.cons_append]

/-- With two bytes after it, an opcode byte always decodes. -/
theorem exists_decode_eq (op b1 b2 : Byte) (rest : List Byte) :
    ∃ c1 c2 after, decode (op :: b1 :: b2 :: rest) = .ok (decodeOpcode op c1 c2, after) := by
  obtain h | h | h := opcodeLength_cases op
  · exact ⟨_, _, _, decode_one h _⟩
  · exact ⟨_, _, _, decode_two h _ _⟩
  · exact ⟨_, _, _, decode_three h _ _ _⟩

/-- Only the bytes of R87 decode to an unofficial instruction. -/
theorem mem_unofficialOpcodes_of_decodeOpcode {op b1 b2 o : Byte} (h : decodeOpcode op b1 b2 = .unofficial o) :
    op ∈ unofficialOpcodes := by
  have hwf := decodeOpcode_wf op b1 b2
  have hop := decodeOpcode_opcode op b1 b2
  rw [h] at hwf hop
  exact Option.some.inj hop ▸ List.contains_iff_mem.mp hwf

theorem decodeOpcode_of_mem_unofficialOpcodes {op : Byte} (h : op ∈ unofficialOpcodes) (b1 b2 : Byte) :
    decodeOpcode op b1 b2 = .unofficial op :=
  decodeOpcode_of_opcode (i := .unofficial op) (List.contains_iff_mem.mpr h) rfl b1 b2

/-- Settles O3: every byte has a row, and `.unofficial op` is well formed for the bytes of R87 alone. -/
theorem decodingIsTotal : Obligations.DecodingIsTotal := by
  refine ⟨rfl, by decide +kernel, fun op b1 b2 rest => ?_⟩
  obtain ⟨c1, c2, after, hdec⟩ := exists_decode_eq op b1 b2 rest
  exact ⟨_, after, hdec, decodeOpcode_wf op c1 c2,
    ⟨fun h => decodeOpcode_of_mem_unofficialOpcodes h c1 c2, mem_unofficialOpcodes_of_decodeOpcode⟩,
    fun hnot o ho => hnot (mem_unofficialOpcodes_of_decodeOpcode ho)⟩

/-- Settles O4: each word has its opcode's length, and the row fills its operand. -/
theorem mapWordsDecode : Obligations.MapWordsDecode := fun b rest =>
  ⟨decode_two rfl b rest, decode_two rfl b rest, decode_three rfl 0x34 0x12 rest, decode_one rfl rest,
    decode_one rfl rest, decode_two rfl b rest, decode_three rfl 0xCD 0xAB rest, decode_one rfl rest,
    decode_three rfl 0xFF 0x02 rest, decode_two rfl b rest, decode_one rfl rest, decode_one rfl (b :: rest)⟩

end Sys2Proof

/-! ## Where an operand lies (30_encoding.md R74 to R82) -/

namespace Sys2Proof.Machine

theorem indexed_ea_toNat (base : Addr) (index : Byte) (s : State) :
    (indexed base index s).ea.toNat = (base.toNat + index.toNat) % 65536 := by
  simp [indexed]

theorem indexed_pageCrossed_iff (base : Addr) (index : Byte) (s : State) :
    (indexed base index s).pageCrossed = true ↔ base &&& 0xFF00 ≠ (indexed base index s).ea &&& 0xFF00 :=
  differentPage_iff _ _

/-- An indexed address of the zero page wraps there (R75, R76). -/
theorem zeroPage_add_toNat (b index : Byte) : ((b + index).setWidth 16).toNat = (b.toNat + index.toNat) % 256 :=
  (BitVec.toNat_setWidth_of_le (by decide)).trans (BitVec.toNat_add b index)

/-- The pointer's two bytes, low first, the second at the next address of the zero page (R81, R82). -/
theorem readZeroPagePointer_eq (z : Byte) (s : State) :
    readZeroPagePointer z s =
      (let lo := BitVec.ofNat 16 z.toNat
       let hi := BitVec.ofNat 16 ((z.toNat + 1) % 256)
       ((s.bus.afterRead lo).answer hi ++ s.bus.answer lo, { s with bus := (s.bus.afterRead lo).afterRead hi })) := by
  have hnext : (z.toNat + 1) % 256 = (z + 1).toNat := by simp
  simp only [hnext, BitVec.ofNat_toNat]
  rfl

/-- Settles O26: the modes index an absolute address, wrap in the zero page, or read a pointer there. -/
theorem addressModes : Obligations.AddressModes := by
  intro s b w
  refine ⟨⟨rfl, rfl⟩, ⟨zeroPage_add_toNat b s.x, zeroPage_add_toNat b s.y, rfl, rfl, rfl, rfl⟩,
    ⟨indexed_ea_toNat w s.x s, indexed_pageCrossed_iff w s.x s, rfl⟩,
    ⟨indexed_ea_toNat w s.y s, indexed_pageCrossed_iff w s.y s, rfl⟩, ?indx, ?indy⟩
  case indx => rw [locate, readZeroPagePointer_eq, BitVec.toNat_add, Nat.mod_add_mod]
  case indy =>
    rw [locate, readZeroPagePointer_eq]
    exact ⟨indexed_ea_toNat _ s.y _, indexed_pageCrossed_iff _ s.y _, rfl⟩

end Sys2Proof.Machine

/-! ## The forms of an instruction: encoding, cost and effect together

A rule of 40_ to 45_ gives each mode's opcode, its cycles and one effect for all modes. The lemmas here take a
mnemonic's opcodes and its effect, said once, to the form of any of its modes. -/

namespace Sys2Proof

theorem MemMode.operandBytes_length (m : MemMode) : m.operandBytes.length = m.operandLength := by
  cases m <;> rfl

end Sys2Proof

namespace Sys2Proof.Machine

/-! ### Encoding -/

/-- An instruction of the map is written as its opcode byte and its operand bytes, and read back from them. -/
theorem encodes_of_opcode {i : Instr} {op : Byte} (hwf : i.wf = true) (hop : i.opcode = some op) :
    Encodes i (op :: i.operandBytes) := by
  have hencode := encode_of_opcode hop
  exact ⟨hencode, fun rest => hencode ▸ decodeOfEncodeIsIdentity i rest hwf⟩

/-! ### Instructions that read an operand -/

/-- A reading instruction whose effect leaves PC and the counter alone, as one next state. -/
theorem withOperand_eq_effect {effect : Byte → State → State} (hpc : ∀ v t, (effect v t).pc = t.pc)
    (hcycles : ∀ v t, (effect v t).cycles = t.cycles) (m : ReadMode) (s : State) :
    withOperand m effect s = .next { effect (readOperand m s).value (readOperand m s).st with
      pc := s.pc + BitVec.ofNat 16 m.length
      cycles := s.cycles + readCost m (readOperand m s).pageCrossed } := by
  obtain ⟨hpc', -, -, -, -, -, hcycles', -⟩ := (readOperand_reads m s).fields
  simp only [withOperand, finish, hpc, hcycles, hpc', hcycles']

/-- What a mnemonic with a reading operand is in all its modes: its memory modes, its opcodes and its effect. -/
structure ReadMnemonic (mk : ReadMode → Instr) (ok : MemMode → Bool) (opcodes : ModeOpcodes)
    (effect : Byte → State → State) : Prop where
  wf : ∀ m, (mk m).wf = m.okWith ok
  opcode : ∀ m, (mk m).opcode = opcodes.ofRead m
  operandBytes : ∀ m, (mk m).operandBytes = m.operandBytes
  exec_eq : ∀ m s, exec (mk m) s = withOperand m effect s
  effect_pc : ∀ v t, (effect v t).pc = t.pc
  effect_cycles : ∀ v t, (effect v t).cycles = t.cycles

section
variable {mk : ReadMode → Instr} {ok : MemMode → Bool} {opcodes : ModeOpcodes} {effect : Byte → State → State}

theorem ReadMnemonic.encodes (h : ReadMnemonic mk ok opcodes effect) {m : ReadMode} {op : Byte}
    (hok : m.okWith ok = true) (hop : opcodes.ofRead m = some op) : Encodes (mk m) (op :: m.operandBytes) :=
  h.operandBytes m ▸ encodes_of_opcode ((h.wf m).trans hok) ((h.opcode m).trans hop)

theorem ReadMnemonic.immediateForm (h : ReadMnemonic mk ok opcodes effect) {op : Byte} (hop : opcodes.imm = some op)
    (v : Byte) : ImmediateForm mk op v effect :=
  ⟨h.encodes (m := .imm v) rfl hop, fun s =>
    (h.exec_eq (.imm v) s).trans (withOperand_eq_effect h.effect_pc h.effect_cycles (.imm v) s)⟩

/-- The form of one memory mode: `penalty` is what a page crossing adds to the cost (R251). -/
theorem ReadMnemonic.readForm (h : ReadMnemonic mk ok opcodes effect) {m : MemMode} {op : Byte} {operand : List Byte}
    {cost penalty : Nat} (hok : ok m = true) (hop : opcodes.ofMem m = some op) (hoperand : m.operandBytes = operand)
    (hcost : readCost (.mem m) false = cost) (hcrossed : readCost (.mem m) true = cost + penalty) :
    ReadForm (mk (.mem m)) (op :: operand) m cost penalty effect := by
  subst hoperand
  refine ⟨h.encodes (m := .mem m) hok hop, fun s => ?_⟩
  have hlength : (op :: m.operandBytes).length = (ReadMode.mem m).length := by
    rw [List.length_cons, MemMode.operandBytes_length, Nat.add_comm]
    rfl
  have hcycles (crossed : Bool) : readCost (.mem m) crossed = cost + if crossed then penalty else 0 := by
    cases crossed
    · exact hcost
    · exact hcrossed
  rw [h.exec_eq, withOperand_eq_effect h.effect_pc h.effect_cycles, hlength, hcycles, ← Nat.add_assoc]
  rfl

/-- The eight forms of a mnemonic that has all the modes of LDA. -/
theorem ReadMnemonic.aluForms {im zp zx ab ax ay ix iy : Byte}
    (h : ReadMnemonic mk MemMode.isAlu
      { imm := some im, zp := some zp, zpx := some zx, abs := some ab, absx := some ax, absy := some ay,
        indx := some ix, indy := some iy } effect) :
    AluForms mk im zp zx ab ax ay ix iy effect := fun v lo hi =>
  have hword := wordBytesLe_joinBytes hi lo
  ⟨h.immediateForm rfl v, h.readForm rfl rfl rfl rfl rfl, h.readForm rfl rfl rfl rfl rfl,
    h.readForm rfl rfl hword rfl rfl, h.readForm rfl rfl hword rfl rfl, h.readForm rfl rfl hword rfl rfl,
    h.readForm rfl rfl rfl rfl rfl, h.readForm rfl rfl rfl rfl rfl⟩

end

/-! ### Loads -/

/-- A load is its register write and the manual's N and Z (R27, R100 to R102). -/
theorem loadReg_eq_withOperand (r : Reg) (m : ReadMode) (s : State) :
    loadReg r m s = withOperand m (fun v t => { t.setReg r v with p := withNZ t.p v }) s := by
  simp only [loadReg, setNZ_eq, State.setReg_p]

theorem lda_readMnemonic :
    ReadMnemonic .lda MemMode.isAlu ldaOpcodes (fun v t => { t with a := v, p := withNZ t.p v }) :=
  ⟨fun _ => rfl, fun _ => rfl, fun _ => rfl, loadReg_eq_withOperand .a, fun _ _ => rfl, fun _ _ => rfl⟩

theorem ldx_readMnemonic :
    ReadMnemonic .ldx MemMode.isLdx ldxOpcodes (fun v t => { t with x := v, p := withNZ t.p v }) :=
  ⟨fun _ => rfl, fun _ => rfl, fun _ => rfl, loadReg_eq_withOperand .x, fun _ _ => rfl, fun _ _ => rfl⟩

theorem ldy_readMnemonic :
    ReadMnemonic .ldy MemMode.isModify ldyOpcodes (fun v t => { t with y := v, p := withNZ t.p v }) :=
  ⟨fun _ => rfl, fun _ => rfl, fun _ => rfl, loadReg_eq_withOperand .y, fun _ _ => rfl, fun _ _ => rfl⟩

/-- Settles O41: LDA has the eight modes of its family, and loads A in each. -/
theorem ldaForms : Obligations.LdaForms := lda_readMnemonic.aluForms

/-- Settles O42: each mode of LDX and of LDY is a row of its mnemonic. -/
theorem ldxLdyForms : Obligations.LdxLdyForms := by
  intro v lo hi
  have hword := wordBytesLe_joinBytes hi lo
  have hx := ldx_readMnemonic
  have hy := ldy_readMnemonic
  exact ⟨⟨hx.immediateForm rfl v, hx.readForm rfl rfl rfl rfl rfl, hx.readForm rfl rfl rfl rfl rfl,
      hx.readForm rfl rfl hword rfl rfl, hx.readForm rfl rfl hword rfl rfl⟩,
    ⟨hy.immediateForm rfl v, hy.readForm rfl rfl rfl rfl rfl, hy.readForm rfl rfl rfl rfl rfl,
      hy.readForm rfl rfl hword rfl rfl, hy.readForm rfl rfl hword rfl rfl⟩⟩

/-! ### Stores -/

/-- What a storing mnemonic is in all its modes: its modes, its opcodes and the register it stores. -/
structure StoreMnemonic (mk : MemMode → Instr) (ok : MemMode → Bool) (opcodes : ModeOpcodes) (r : Reg) : Prop where
  wf : ∀ m, (mk m).wf = ok m
  opcode : ∀ m, (mk m).opcode = opcodes.ofMem m
  operandBytes : ∀ m, (mk m).operandBytes = m.operandBytes
  exec_eq : ∀ m s, exec (mk m) s = storeReg r m s

/-- The form of one mode: its cost is fixed, and its one access at `ea` is the write (R251). -/
theorem StoreMnemonic.storeForm {mk : MemMode → Instr} {ok : MemMode → Bool} {opcodes : ModeOpcodes} {r : Reg}
    (h : StoreMnemonic mk ok opcodes r) {m : MemMode} {op : Byte} {operand : List Byte} {cost : Nat}
    (hok : ok m = true) (hop : opcodes.ofMem m = some op) (hoperand : m.operandBytes = operand)
    (hcost : storeCost m = cost) : StoreForm (mk m) (op :: operand) m cost (State.getReg r) := by
  subst hoperand hcost
  refine ⟨h.operandBytes m ▸ encodes_of_opcode ((h.wf m).trans hok) ((h.opcode m).trans hop), fun s => ?_⟩
  rw [h.exec_eq, storeReg_eq, List.length_cons, MemMode.operandBytes_length, Nat.add_comm]
  dsimp only
  rw [locate_st m s]

theorem sta_storeMnemonic : StoreMnemonic .sta MemMode.isAlu staOpcodes .a :=
  ⟨fun _ => rfl, fun _ => rfl, fun _ => rfl, fun _ _ => rfl⟩

theorem stx_storeMnemonic : StoreMnemonic .stx MemMode.isStx stxOpcodes .x :=
  ⟨fun _ => rfl, fun _ => rfl, fun _ => rfl, fun _ _ => rfl⟩

theorem sty_storeMnemonic : StoreMnemonic .sty MemMode.isSty styOpcodes .y :=
  ⟨fun _ => rfl, fun _ => rfl, fun _ => rfl, fun _ _ => rfl⟩

/-- Settles O43: each mode of STA, STX and STY is a row of its mnemonic, with one fixed cost. -/
theorem storeForms : Obligations.StoreForms := by
  intro lo hi
  have hword := wordBytesLe_joinBytes hi lo
  have ha := sta_storeMnemonic
  have hx := stx_storeMnemonic
  have hy := sty_storeMnemonic
  exact ⟨⟨ha.storeForm rfl rfl rfl rfl, ha.storeForm rfl rfl rfl rfl, ha.storeForm rfl rfl hword rfl,
      ha.storeForm rfl rfl hword rfl, ha.storeForm rfl rfl hword rfl, ha.storeForm rfl rfl rfl rfl,
      ha.storeForm rfl rfl rfl rfl⟩,
    ⟨hx.storeForm rfl rfl rfl rfl, hx.storeForm rfl rfl rfl rfl, hx.storeForm rfl rfl hword rfl⟩,
    ⟨hy.storeForm rfl rfl rfl rfl, hy.storeForm rfl rfl rfl rfl, hy.storeForm rfl rfl hword rfl⟩⟩

/-! ### Transfers -/

theorem transferNZ_eq (src dst : Reg) (s : State) :
    transferNZ src dst s = .next { s.setReg dst (s.getReg src) with
      p := withNZ s.p (s.getReg src)
      pc := s.pc + 1
      cycles := s.cycles + 2 } := by
  simp only [transferNZ, setNZ_eq, finish, State.setReg_p, State.setReg_pc, State.setReg_cycles]
  rfl

/-- Settles O44: five transfers are `transferNZ`; TXS writes SP and no flag. -/
theorem transferForms : Obligations.TransferForms :=
  ⟨⟨encodes_of_opcode rfl rfl, transferNZ_eq .a .x⟩, ⟨encodes_of_opcode rfl rfl, transferNZ_eq .a .y⟩,
    ⟨encodes_of_opcode rfl rfl, transferNZ_eq .sp .x⟩, ⟨encodes_of_opcode rfl rfl, transferNZ_eq .x .a⟩,
    ⟨encodes_of_opcode rfl rfl, fun _ => rfl⟩, ⟨encodes_of_opcode rfl rfl, transferNZ_eq .y .a⟩⟩

end Sys2Proof.Machine

/-! ## The stack (41_stack.md)

A push is one write to the stack page and a pull one read of it. `SameStorageBut ws s` is kept by every write at an
address of `ws` and by reads, so what a run of pushes leaves unchanged is read off where SP points at each of them. -/

namespace Sys2Proof.Machine

/-! ### Push and pull (R120, R121) -/

theorem push_eq (v : Byte) (s : State) :
    push v s = { s with bus := s.bus.write (stackByte s.sp) v, sp := s.sp - 1 } := by
  rw [← stackAddr_eq]
  rfl

theorem pull_eq (s : State) :
    pull s = (s.bus.answer (stackByte (s.sp + 1)),
      { s with bus := s.bus.afterRead (stackByte (s.sp + 1)), sp := s.sp + 1 }) := by
  rw [← stackAddr_eq]
  rfl

/-- High byte first. -/
theorem push16_eq (w : Addr) (s : State) :
    push16 w s = push (BitVec.ofNat 8 w.toNat) (push (BitVec.ofNat 8 (w.toNat / 0x100)) s) := by
  rw [push16, highByte_eq, lowByte_eq]

/-- Settles O22: Push and Pull are one write and one read at the byte SP names, and SP wraps as an 8-bit value. -/
theorem stackPrimitives : Obligations.StackPrimitives := by
  intro s v w
  refine ⟨push_eq v s, push16_eq w s, pull_eq s, rfl, rfl, ?push_wraps, ?pull_wraps⟩
  case push_wraps =>
    intro hsp
    rw [push_sp, hsp]
    rfl
  case pull_wraps =>
    intro hsp
    rw [pull_sp, hsp]
    rfl

/-! ### What pushes leave unchanged -/

section
variable {ws : List Addr} {s t u : State}

theorem SameStorageBut.refl (ws : List Addr) (s : State) : SameStorageBut ws s s := ⟨rfl, fun _ _ => rfl⟩

theorem SameStorageBut.reads (h : SameStorageBut ws s t) (hu : t.bus.ReadsTo u.bus) : SameStorageBut ws s u := by
  obtain ⟨hplatform, hpeek⟩ := h
  exact ⟨hu.platform_eq.trans hplatform, fun a ha => (hu.peek_eq a).trans (hpeek a ha)⟩

theorem SameStorageBut.memWrite (h : SameStorageBut ws s t) {w : Addr} (hw : w ∈ ws) (v : Byte) :
    SameStorageBut ws s (memWrite w v t) := by
  obtain ⟨hplatform, hpeek⟩ := h
  refine ⟨(Bus.write_platform ..).trans hplatform, fun a ha => ?_⟩
  have hnot : t.bus.platform.touches w a = false := hplatform ▸ ha w hw
  exact (Bus.peek_write_of_not_touches v hnot).trans (hpeek a ha)

theorem SameStorageBut.push (h : SameStorageBut ws s t) (hw : stackByte t.sp ∈ ws) (v : Byte) :
    SameStorageBut ws s (push v t) :=
  (h.memWrite (stackAddr_eq t.sp ▸ hw) v).reads (.refl _)

theorem SameStorageBut.push16 (h : SameStorageBut ws s t) (hw : stackByte t.sp ∈ ws)
    (hw' : stackByte (t.sp - 1) ∈ ws) (w : Addr) : SameStorageBut ws s (push16 w t) :=
  (h.push hw _).push hw' _

theorem SameStorageBut.pushes (h : SameStorageBut ws s t) (hws : ∀ sp, stackByte sp ∈ ws) (vs : List Byte) :
    SameStorageBut ws s (vs.foldl (fun u v => Machine.push v u) t) := by
  induction vs generalizing t with
  | nil => exact h
  | cons v vs ih => exact ih (h.push (hws t.sp) v)

end

theorem takeException_sameStorageBut (vec ret : Addr) (b : Bool) (s : State) :
    SameStorageBut [stackByte s.sp, stackByte (s.sp - 1), stackByte (s.sp - 2)] s (takeException vec ret b s) := by
  have hsp : (push16 ret s).sp = s.sp - 2 := BitVec.sub_sub s.sp 1 1
  refine SameStorageBut.reads (t := push (pushImage s.p b) (push16 ret s)) ?_
    (((Bus.ReadsTo.refl _).afterRead vec).afterRead (vec + 1))
  exact ((SameStorageBut.refl _ s).push16 (by simp) (by simp) ret).push (by simp [hsp]) _

/-- Settles O29: every push of the four instructions is at a listed byte, and BRK only reads after its pushes. -/
theorem pushingKeepsOtherBytes : Obligations.PushingKeepsOtherBytes := by
  intro s
  refine ⟨⟨_, rfl, ?pha⟩, ⟨_, rfl, ?php⟩, fun w => ⟨_, rfl, ?jsr⟩, ⟨_, rfl, ?brk⟩⟩
  case pha => exact ((SameStorageBut.refl _ s).push (by simp) s.a).reads (.refl _)
  case php => exact ((SameStorageBut.refl _ s).push (by simp) (pushImage s.p true)).reads (.refl _)
  case jsr => exact ((SameStorageBut.refl _ s).push16 (by simp) (by simp) (s.pc + 2)).reads (.refl _)
  case brk => exact takeException_sameStorageBut Config.irqVector (s.pc + 2) true s

/-! ### The stack page as a ring (R122) -/

/-- Every value of SP names one of the 256 addresses of the stack page (R24). -/
theorem stackByte_mem_stackPage (sp : Byte) :
    stackByte sp ∈ (List.range 256).map fun k => stackByte (BitVec.ofNat 8 k) :=
  List.mem_map.mpr ⟨sp.toNat, List.mem_range.mpr sp.isLt, by rw [BitVec.ofNat_toNat, BitVec.setWidth_eq]⟩

theorem pushes_sp (vs : List Byte) (s : State) :
    (vs.foldl (fun u v => push v u) s).sp = s.sp - BitVec.ofNat 8 vs.length := by
  induction vs generalizing s with
  | nil => exact (BitVec.sub_zero s.sp).symm
  | cons v vs ih =>
    rw [List.foldl_cons, ih, push_sp, List.length_cons, BitVec.ofNat_add]
    bv_omega

/-- Settles O23: each push lowers SP by 1 modulo 256, and writes at a byte of the stack page. -/
theorem stackWrapsAfter256Pushes : Obligations.StackWrapsAfter256Pushes := by
  intro s vs
  have hsame := (SameStorageBut.refl _ s).pushes stackByte_mem_stackPage vs
  have hsp (hlen : vs.length = 256) : (vs.foldl (fun u v => push v u) s).sp = s.sp := by
    rw [pushes_sp, hlen]
    exact BitVec.sub_zero s.sp
  refine ⟨hsp, fun v hlen hram => ?overwritten, hsame⟩
  case overwritten =>
    rw [push_bus, stackAddr_eq, hsp hlen, Bus.peek_write_stack (hsame.1 ▸ hram), if_pos rfl]

/-! ### PHA, PHP, PLA and PLP (R123 to R126) -/

/-- With bits 4 and 5 set, `PushImage` is one mask (R34, R124). -/
theorem pushImage_true (p : Byte) : pushImage p true = (p &&& 0xCF) ||| 0x30 := BitVec.or_assoc _ _ _

/-- Settles O45: a push or a pull, as R120 and R121 give it, and the instruction's own registers and flags. -/
theorem stackForms : Obligations.StackForms := by
  refine ⟨⟨encodes_of_opcode rfl rfl, fun s => ?pha⟩, ⟨encodes_of_opcode rfl rfl, fun s => ?php⟩,
    ⟨encodes_of_opcode rfl rfl, fun s => ?pla⟩, ⟨encodes_of_opcode rfl rfl, fun s => ?plp⟩⟩
  case pha =>
    rw [exec, execPha, push_eq]
    rfl
  case php =>
    rw [exec, execPhp, push_eq, pushImage_true]
    rfl
  case pla =>
    rw [exec, execPla, pull_eq, setNZ_eq]
    rfl
  case plp =>
    rw [exec, execPlp, pull_eq]
    rfl

/-! ### A pull after a push (R120, R121) -/

/-- On RAM, the byte a pull reads after a push is the one pushed. -/
theorem Bus.answer_write_stack {b : Bus} (h : b.platform ≠ .anyBus) (sp v : Byte) :
    (b.write (stackByte sp) v).answer (stackByte (sp - 1 + 1)) = v := by
  apply Bus.answer_of_peek
  rw [BitVec.sub_add_cancel, Bus.peek_write_stack h, if_pos rfl]

/-- What PLP keeps of a byte that PHP pushed: bits 4 and 5 are pushed as 1 and ignored when pulled (R34, R35). -/
theorem pushed_and_pulledMask (p : Byte) : ((p &&& 0xCF) ||| 0x30) &&& 0xCF = p &&& 0xCF := by
  rw [BitVec.and_or_distrib_right, BitVec.and_assoc]
  exact BitVec.or_zero

/-- Settles O24: by the forms of O45; the pull is where the push was, and SP comes back. -/
theorem pullFindsWhatWasPushed : Obligations.PullFindsWhatWasPushed := by
  intro s v hram
  obtain ⟨⟨-, hpha⟩, ⟨-, hphp⟩, ⟨-, hpla⟩, -, hplp⟩ := stackForms
  refine ⟨⟨_, _, hpha s, hpla _, ?a, ?sp_a⟩, ⟨_, _, hphp s, hplp _, ?sp_p, ?p⟩⟩
  case a => exact Bus.answer_write_stack hram s.sp s.a
  case sp_a => exact BitVec.sub_add_cancel s.sp 1
  case sp_p => exact BitVec.sub_add_cancel s.sp 1
  case p =>
    dsimp only
    rw [Bus.answer_write_stack hram, pushed_and_pulledMask]

end Sys2Proof.Machine

/-! ## Arithmetic and logic (42_arith_logic.md)

Each family's effect, which the model writes with its flag operations, is said once by the manual's masks; the forms
then come from the rows of the mnemonics. The two statements about integers are facts about the sum alone. -/

namespace Sys2Proof.Machine

/-! ### ADC and SBC (R130, R131) -/

/-- C as the number that enters a sum. -/
theorem flag_carry_toNat (s : State) : (s.flag .carry).toNat = (s.p &&& 0x01).toNat := by
  have hbit : ∀ p : Byte, (p.getLsbD 0).toNat = (p &&& 0x01).toNat := by decide +kernel
  exact hbit s.p

/-- The model's addition is the manual's: its sum, and C, V, Z and N by masks. -/
theorem addToA_eq_sumIntoA (m : Byte) (s : State) : addToA m s = sumIntoA m s := by
  have hsum : s.a.toNat + m.toNat + (s.p &&& 0x01).toNat = addSum s.a m (s.flag .carry) := by
    rw [← flag_carry_toNat, addSum]
  simp only [sumIntoA, hsum, ← setBit_carry, ← setBit_overflow, ← setBit_zero_negative, ne_eq, decide_not]
  rfl

theorem adc_readMnemonic : ReadMnemonic .adc MemMode.isAlu adcOpcodes sumIntoA :=
  ⟨fun _ => rfl, fun _ => rfl, fun _ => rfl, fun m s => congrArg (withOperand m · s) (funext₂ addToA_eq_sumIntoA),
    fun _ _ => rfl, fun _ _ => rfl⟩

theorem sbc_readMnemonic : ReadMnemonic .sbc MemMode.isAlu sbcOpcodes (fun v t => sumIntoA (v ^^^ 0xFF) t) :=
  ⟨fun _ => rfl, fun _ => rfl, fun _ => rfl,
    fun m s => congrArg (withOperand m · s) (funext₂ fun v t => addToA_eq_sumIntoA (v ^^^ 0xFF) t),
    fun _ _ => rfl, fun _ _ => rfl⟩

/-- Settles O46: ADC has the eight modes of its family, and adds in each. -/
theorem adcForms : Obligations.AdcForms := adc_readMnemonic.aluForms

/-- Settles O47: SBC has the eight modes of its family, and adds the complement in each. -/
theorem sbcForms : Obligations.SbcForms := sbc_readMnemonic.aluForms

/-! ### The sum on integers -/

@[simp] theorem finish_flag (len cost : Nat) (f : Flag) (s : State) : (finish len cost s).flag f = s.flag f := rfl

theorem addToA_flag_carry (m : Byte) (s : State) : (addToA m s).flag .carry = addCarry s.a m (s.flag .carry) := by
  simp [addToA, setNZ, State.flag_setFlag]

theorem addToA_flag_overflow (m : Byte) (s : State) : (addToA m s).flag .overflow = addOverflow s.a m (s.flag .carry) := by
  simp [addToA, setNZ, State.flag_setFlag]

/-- The mask 0x80 tests the sign bit. -/
theorem and_0x80_ne_zero_iff (v : Byte) : v &&& 0x80 ≠ 0 ↔ v.msb = true := by
  revert v
  decide +kernel

/-- V says that the addends have one sign and the result the other. -/
theorem addOverflow_iff_msb (a m : Byte) (c : Bool) :
    addOverflow a m c = true ↔ a.msb = m.msb ∧ (addResult a m c).msb ≠ a.msb := by
  rw [addOverflow, bne_iff_ne, and_0x80_ne_zero_iff, BitVec.msb_and, BitVec.msb_xor, BitVec.msb_xor]
  cases a.msb <;> cases m.msb <;> simp

/-- The complement is the distance from 0xFF. -/
theorem complement_toNat (v : Byte) : (v ^^^ 0xFF).toNat = 255 - v.toNat := by
  have hnot : v ^^^ 0xFF = ~~~v := BitVec.xor_allOnes
  rw [hnot, BitVec.toNat_not]

/-- Adding the complement is subtracting with borrow, 256 higher. -/
theorem addSum_complement (a v : Byte) (c : Bool) :
    (addSum a (v ^^^ 0xFF) c : Int) = a.toNat - v.toNat - (1 - c.toNat) + 256 := by
  have hv := v.isLt
  rw [addSum, complement_toNat]
  omega

/-- V of SBC compares the signs of A, M and the result (R131). -/
theorem addOverflow_complement_iff (a v : Byte) (c : Bool) :
    addOverflow a (v ^^^ 0xFF) c = true ↔ (a ^^^ v) &&& (a ^^^ addResult a (v ^^^ 0xFF) c) &&& 0x80 ≠ 0 := by
  have hmsb : (v ^^^ 0xFF).msb = !v.msb := by
    rw [BitVec.msb_xor]
    exact Bool.xor_true _
  rw [addOverflow_iff_msb, hmsb, and_0x80_ne_zero_iff, BitVec.msb_and, BitVec.msb_xor, BitVec.msb_xor]
  cases a.msb <;> cases v.msb <;> simp

/-- Settles O48: with the complement for M, the sum is the difference plus 256, and its carry is "no borrow". -/
theorem sbcSubtractsWithBorrow : Obligations.SbcSubtractsWithBorrow := by
  intro v s
  refine ⟨finish 2 2 (addToA (v ^^^ 0xFF) s), rfl, ?_⟩
  have hsum := addSum_complement s.a v (s.flag .carry)
  simp only [finish_a, finish_flag, addToA_a, addToA_flag_carry, addToA_flag_overflow, ← flag_carry_toNat]
  refine ⟨?a, ?carry, addOverflow_complement_iff s.a v (s.flag .carry)⟩
  case a =>
    rw [addResult, ← BitVec.ofInt_natCast, hsum, BitVec.ofInt_add]
    exact BitVec.add_zero _
  case carry =>
    rw [addCarry, decide_eq_true_iff]
    omega

/-- The signed sum with the carry. -/
def signedSum (a m : Byte) (c : Bool) : Int := a.toInt + m.toInt + c.toNat

theorem addResult_eq_ofInt (a m : Byte) (c : Bool) : addResult a m c = BitVec.ofInt 8 (signedSum a m c) := by
  rw [addResult, addSum, signedSum, BitVec.ofInt_add, BitVec.ofInt_add, BitVec.ofInt_toInt, BitVec.ofInt_toInt,
    BitVec.ofInt_natCast, BitVec.ofNat_add, BitVec.ofNat_add, BitVec.ofNat_toNat, BitVec.ofNat_toNat,
    BitVec.setWidth_eq, BitVec.setWidth_eq]

/-- V is two's-complement overflow (R130, R145). -/
theorem addOverflow_iff_signedSum (a m : Byte) (c : Bool) :
    addOverflow a m c = true ↔ signedSum a m c < -128 ∨ 127 < signedSum a m c := by
  have ha := a.isLt
  have hm := m.isLt
  have hc := c.toNat_le
  rw [addOverflow_iff_msb, signedSum, BitVec.toInt_eq_toNat_cond, BitVec.toInt_eq_toNat_cond]
  simp only [BitVec.msb_eq_decide, addResult, addSum, BitVec.toNat_ofNat, ne_eq, decide_eq_decide]
  omega

/-- With no overflow the result is the sum itself. -/
theorem addResult_toInt {a m : Byte} {c : Bool} (h : addOverflow a m c = false) :
    (addResult a m c).toInt = signedSum a m c := by
  have hrange : ¬(signedSum a m c < -128 ∨ 127 < signedSum a m c) := by
    rw [← addOverflow_iff_signedSum, h]
    decide
  rw [addResult_eq_ofInt]
  exact BitVec.toInt_ofInt_eq_self (by decide) (by omega) (by omega)

/-- Settles O49: the sign bits of A, M and the result tell when the signed sum leaves its range. -/
theorem adcOverflowIsSignedOverflow : Obligations.AdcOverflowIsSignedOverflow := by
  intro v s
  refine ⟨finish 2 2 (addToA v s), rfl, ?_⟩
  simp only [finish_a, finish_flag, addToA_a, addToA_flag_overflow, ← flag_carry_toNat]
  exact ⟨addOverflow_iff_signedSum s.a v (s.flag .carry), addResult_toInt⟩

/-! ### AND, ORA and EOR (R132 to R134) -/

theorem logicA_eq_withOperand (f : Byte → Byte → Byte) (m : ReadMode) (s : State) :
    logicA f m s = withOperand m (fun v t => { t with a := f t.a v, p := withNZ t.p (f t.a v) }) s := by
  simp only [logicA, setNZ_eq]

theorem and_readMnemonic :
    ReadMnemonic .and MemMode.isAlu andOpcodes (fun v t => { t with a := t.a &&& v, p := withNZ t.p (t.a &&& v) }) :=
  ⟨fun _ => rfl, fun _ => rfl, fun _ => rfl, logicA_eq_withOperand fun a v => a &&& v, fun _ _ => rfl, fun _ _ => rfl⟩

theorem ora_readMnemonic :
    ReadMnemonic .ora MemMode.isAlu oraOpcodes (fun v t => { t with a := t.a ||| v, p := withNZ t.p (t.a ||| v) }) :=
  ⟨fun _ => rfl, fun _ => rfl, fun _ => rfl, logicA_eq_withOperand fun a v => a ||| v, fun _ _ => rfl, fun _ _ => rfl⟩

theorem eor_readMnemonic :
    ReadMnemonic .eor MemMode.isAlu eorOpcodes (fun v t => { t with a := t.a ^^^ v, p := withNZ t.p (t.a ^^^ v) }) :=
  ⟨fun _ => rfl, fun _ => rfl, fun _ => rfl, logicA_eq_withOperand fun a v => a ^^^ v, fun _ _ => rfl, fun _ _ => rfl⟩

/-- Settles O50: each of the three has the eight modes of its family. -/
theorem logicForms : Obligations.LogicForms :=
  ⟨and_readMnemonic.aluForms, ora_readMnemonic.aluForms, eor_readMnemonic.aluForms⟩

/-! ### CMP, CPX and CPY (R135, R137, R138) -/

theorem compareFlags_eq (r m : Byte) (s : State) : compareFlags r m s = { s with p := comparedP s.p r m } := by
  rw [compareFlags, setNZ_eq, comparedP, ← setBit_carry]
  rfl

theorem compareReg_eq_withOperand (r : Reg) (m : ReadMode) (s : State) :
    compareReg r m s = withOperand m (fun v t => { t with p := comparedP t.p (t.getReg r) v }) s := by
  simp only [compareReg, compareFlags_eq]

theorem cmp_readMnemonic :
    ReadMnemonic .cmp MemMode.isAlu cmpOpcodes (fun v t => { t with p := comparedP t.p t.a v }) :=
  ⟨fun _ => rfl, fun _ => rfl, fun _ => rfl, compareReg_eq_withOperand .a, fun _ _ => rfl, fun _ _ => rfl⟩

theorem cpx_readMnemonic :
    ReadMnemonic .cpx MemMode.isPlain cpxOpcodes (fun v t => { t with p := comparedP t.p t.x v }) :=
  ⟨fun _ => rfl, fun _ => rfl, fun _ => rfl, compareReg_eq_withOperand .x, fun _ _ => rfl, fun _ _ => rfl⟩

theorem cpy_readMnemonic :
    ReadMnemonic .cpy MemMode.isPlain cpyOpcodes (fun v t => { t with p := comparedP t.p t.y v }) :=
  ⟨fun _ => rfl, fun _ => rfl, fun _ => rfl, compareReg_eq_withOperand .y, fun _ _ => rfl, fun _ _ => rfl⟩

/-- Settles O51: CMP has the eight modes of its family; each mode of CPX and of CPY is a row of its mnemonic. -/
theorem compareForms : Obligations.CompareForms := by
  refine ⟨cmp_readMnemonic.aluForms, fun v lo hi => ?_⟩
  have hword := wordBytesLe_joinBytes hi lo
  have hx := cpx_readMnemonic
  have hy := cpy_readMnemonic
  exact ⟨⟨hx.immediateForm rfl v, hx.readForm rfl rfl rfl rfl rfl, hx.readForm rfl rfl hword rfl rfl⟩,
    ⟨hy.immediateForm rfl v, hy.readForm rfl rfl rfl rfl rfl, hy.readForm rfl rfl hword rfl rfl⟩⟩

/-! ### BIT (R136) -/

/-- Z, N and V written one by one are one mask: N and V are M's own bits 7 and 6. -/
theorem setBit_zero_negative_overflow (p v : Byte) (z : Bool) :
    setBit (setBit (setBit p 1 z) 7 (v.getLsbD 7)) 6 (v.getLsbD 6) =
      (p &&& 0x3D) ||| (v &&& 0xC0) ||| (if z then 0x02 else 0x00) := by
  have hbits : v &&& 0xC0 = (if v.getLsbD 7 then 0x80 else 0x00) ||| (if v.getLsbD 6 then 0x40 else 0x00) := by
    revert v
    decide +kernel
  have hmask : ∀ n o : Bool, setBit (setBit (setBit p 1 z) 7 n) 6 o =
      (p &&& 0x3D) ||| ((if n then 0x80 else 0x00) ||| (if o then 0x40 else 0x00)) ||| (if z then 0x02 else 0x00) := by
    revert p z
    decide +kernel
  rw [hbits, hmask]

theorem bitFlags_eq (m : Byte) (s : State) :
    bitFlags m s = { s with p := (s.p &&& 0x3D) ||| (m &&& 0xC0) ||| (if s.a &&& m = 0 then 0x02 else 0x00) } := by
  have hmask := setBit_zero_negative_overflow s.p m (s.a &&& m == 0)
  simp only [beq_iff_eq] at hmask
  rw [← hmask]
  rfl

/-- BIT in any memory mode. -/
theorem exec_bit_eq (m : MemMode) (s : State) :
    exec (.bit m) s = .next
      (let r := readOperand (.mem m) s
       { r.st with
          p := (r.st.p &&& 0x3D) ||| (r.value &&& 0xC0) ||| (if r.st.a &&& r.value = 0 then 0x02 else 0x00)
          pc := s.pc + BitVec.ofNat 16 (ReadMode.mem m).length
          cycles := s.cycles + readCost (.mem m) r.pageCrossed }) := by
  have hexec := withOperand_eq_effect (effect := bitFlags) (fun _ _ => rfl) (fun _ _ => rfl) (.mem m) s
  rw [bitFlags_eq] at hexec
  exact hexec

/-- Settles O52: neither mode of BIT indexes, so no page is crossed. -/
theorem bitForms : Obligations.BitForms := by
  intro lo hi
  have habs : Encodes (.bit (.abs (hi ++ lo))) (0x2C :: wordBytesLe (joinBytes hi lo)) := encodes_of_opcode rfl rfl
  rw [wordBytesLe_joinBytes] at habs
  exact ⟨⟨encodes_of_opcode rfl rfl, exec_bit_eq (.zp lo)⟩, ⟨habs, exec_bit_eq (.abs (hi ++ lo))⟩⟩

/-! ### INC and DEC (R139, R140) -/

/-- What a read-modify-write mnemonic is in all its memory modes: its opcodes, and the new byte and the new P that it
makes of the old. -/
structure ModifyMnemonic (mk : MemMode → Instr) (opcodes : ModeOpcodes) (f : Byte → Byte → Byte × Byte) : Prop where
  wf : ∀ m, (mk m).wf = m.isModify
  opcode : ∀ m, (mk m).opcode = opcodes.ofMem m
  operandBytes : ∀ m, (mk m).operandBytes = m.operandBytes
  exec_eq : ∀ m s, exec (mk m) s = .next
    (let l := locate m s
     let r := f (l.st.bus.answer l.ea) s.p
     { s with
        p := r.2
        bus := (l.st.bus.afterRead l.ea).write l.ea r.1
        pc := s.pc + BitVec.ofNat 16 (1 + m.operandLength)
        cycles := s.cycles + modifyCost m })

section
variable {mk : MemMode → Instr} {opcodes : ModeOpcodes} {f : Byte → Byte → Byte × Byte}

/-- The form of one mode: its cost is fixed, and its accesses at `ea` are one read and one write (R251). -/
theorem ModifyMnemonic.modifyForm (h : ModifyMnemonic mk opcodes f) {m : MemMode} {op : Byte} {operand : List Byte}
    {cost : Nat} (hok : m.isModify = true) (hop : opcodes.ofMem m = some op) (hoperand : m.operandBytes = operand)
    (hcost : modifyCost m = cost) : ModifyForm (mk m) (op :: operand) m cost f := by
  subst hoperand hcost
  refine ⟨h.operandBytes m ▸ encodes_of_opcode ((h.wf m).trans hok) ((h.opcode m).trans hop), fun s => ?_⟩
  rw [h.exec_eq, List.length_cons, MemMode.operandBytes_length, Nat.add_comm]
  dsimp only
  rw [locate_st m s]

/-- The four memory forms of a mnemonic that has all the modes of INC. -/
theorem ModifyMnemonic.modifyForms {acc : Option Byte} {zp zx ab ax : Byte}
    (h : ModifyMnemonic mk { acc := acc, zp := some zp, zpx := some zx, abs := some ab, absx := some ax } f) :
    ModifyForms mk zp zx ab ax f := fun lo hi =>
  have hword := wordBytesLe_joinBytes hi lo
  ⟨h.modifyForm rfl rfl rfl rfl, h.modifyForm rfl rfl rfl rfl, h.modifyForm rfl rfl hword rfl,
    h.modifyForm rfl rfl hword rfl⟩

end

theorem inc_modifyMnemonic : ModifyMnemonic .inc incOpcodes (fun v p => (v + 1, withNZ p (v + 1))) :=
  ⟨fun _ => rfl, fun _ => rfl, fun _ => rfl, modifyMem_eq (· + 1)⟩

theorem dec_modifyMnemonic : ModifyMnemonic .dec decOpcodes (fun v p => (v - 1, withNZ p (v - 1))) :=
  ⟨fun _ => rfl, fun _ => rfl, fun _ => rfl, modifyMem_eq (· - 1)⟩

/-- Settles O53: INC and DEC have the four modes of their family. -/
theorem incDecForms : Obligations.IncDecForms := ⟨inc_modifyMnemonic.modifyForms, dec_modifyMnemonic.modifyForms⟩

/-! ### INX, INY, DEX and DEY (R141 to R144) -/

theorem updateReg_eq (r : Reg) (v : Byte) (s : State) :
    updateReg r v s = .next { s.setReg r v with
      p := withNZ s.p v
      pc := s.pc + 1
      cycles := s.cycles + 2 } := by
  simp only [updateReg, setNZ_eq, finish, State.setReg_p, State.setReg_pc, State.setReg_cycles]
  rfl

/-- Settles O54: all four are `updateReg`. -/
theorem indexIncDecForms : Obligations.IndexIncDecForms :=
  ⟨⟨encodes_of_opcode rfl rfl, fun s => updateReg_eq .x (s.x + 1) s⟩,
    ⟨encodes_of_opcode rfl rfl, fun s => updateReg_eq .y (s.y + 1) s⟩,
    ⟨encodes_of_opcode rfl rfl, fun s => updateReg_eq .x (s.x - 1) s⟩,
    ⟨encodes_of_opcode rfl rfl, fun s => updateReg_eq .y (s.y - 1) s⟩⟩

end Sys2Proof.Machine

/-! ## Shifts and rotates (43_shift_rotate.md)

A mnemonic's five forms follow from its shift, a function of the byte and the old C. The shifts are then said on exact
integers: ASL is ROL with a 0 entering, and LSR is ROR with a 0 entering. -/

namespace Sys2Proof.Machine

/-! ### The five forms of a shift -/

/-- The new byte and the new P that a shift makes of the old. -/
def shiftEffect (f : Byte → Bool → Shifted) (v p : Byte) : Byte × Byte :=
  let r := f v (p.getLsbD 0)
  (r.1, withNZ (withC p r.2) r.1)

/-- What a shift mnemonic is in all its modes: its opcodes and its shift. -/
structure ShiftMnemonic (mk : ShiftMode → Instr) (opcodes : ModeOpcodes) (f : Byte → Bool → Shifted) : Prop where
  wf : ∀ m, (mk m).wf = m.ok
  opcode : ∀ m, (mk m).opcode = opcodes.ofShift m
  operandBytes : ∀ m, (mk m).operandBytes = m.operandBytes
  exec_eq : ∀ m s, exec (mk m) s = shift f m s

section
variable {mk : ShiftMode → Instr} {opcodes : ModeOpcodes} {f : Byte → Bool → Shifted}

theorem ShiftMnemonic.impliedForm (h : ShiftMnemonic mk opcodes f) {op : Byte} (hop : opcodes.acc = some op) :
    ImpliedForm (mk .acc) op 2 (fun s => { s with a := (shiftEffect f s.a s.p).1, p := (shiftEffect f s.a s.p).2 }) :=
  have hencodes : Encodes (mk .acc) (op :: ShiftMode.acc.operandBytes) :=
    h.operandBytes .acc ▸ encodes_of_opcode (h.wf .acc) ((h.opcode .acc).trans hop)
  ⟨hencodes, fun s => (h.exec_eq .acc s).trans (shift_acc_eq f s)⟩

/-- In its memory modes a shift is a read-modify-write. -/
theorem ShiftMnemonic.modifyMnemonic (h : ShiftMnemonic mk opcodes f) :
    ModifyMnemonic (fun m => mk (.mem m)) opcodes (shiftEffect f) :=
  ⟨fun m => h.wf (.mem m), fun m => h.opcode (.mem m), fun m => h.operandBytes (.mem m),
    fun m s => (h.exec_eq (.mem m) s).trans (shift_mem_eq f m s)⟩

theorem ShiftMnemonic.shiftForms {acc zp zx ab ax : Byte} {effect : Byte → Byte → Byte × Byte}
    (h : ShiftMnemonic mk
      { acc := some acc, zp := some zp, zpx := some zx, abs := some ab, absx := some ax } f)
    (heffect : ∀ v p, shiftEffect f v p = effect v p) : ShiftForms mk acc zp zx ab ax effect :=
  funext₂ heffect ▸ ⟨h.impliedForm rfl, h.modifyMnemonic.modifyForms⟩

end

theorem asl_shiftMnemonic : ShiftMnemonic .asl aslOpcodes shiftAsl :=
  ⟨fun _ => rfl, fun _ => rfl, fun _ => rfl, fun _ _ => rfl⟩

theorem lsr_shiftMnemonic : ShiftMnemonic .lsr lsrOpcodes shiftLsr :=
  ⟨fun _ => rfl, fun _ => rfl, fun _ => rfl, fun _ _ => rfl⟩

theorem rol_shiftMnemonic : ShiftMnemonic .rol rolOpcodes shiftRol :=
  ⟨fun _ => rfl, fun _ => rfl, fun _ => rfl, fun _ _ => rfl⟩

theorem ror_shiftMnemonic : ShiftMnemonic .ror rorOpcodes shiftRor :=
  ⟨fun _ => rfl, fun _ => rfl, fun _ => rfl, fun _ _ => rfl⟩

/-! ### The shifts on integers (R160 to R163) -/

/-- C as the number that enters a rotate. -/
theorem getLsbD_zero_toNat (p : Byte) : (p.getLsbD 0).toNat = p.toNat % 2 := by
  rw [BitVec.getLsbD, Nat.toNat_testBit, pow_zero, Nat.div_one]

/-- The doubled byte is even, so the old C takes the free bit 0. -/
theorem shiftRol_eq (v : Byte) (c : Bool) :
    shiftRol v c = (BitVec.ofNat 8 (2 * v.toNat + c.toNat), decide (0x80 ≤ v.toNat)) := by
  have hsum : 2 * v.toNat + c.toNat = v.toNat <<< 1 ||| c.toNat := by
    rw [← Nat.shiftLeft_add_eq_or_of_lt c.toNat_lt, Nat.shiftLeft_eq_mul_pow, Nat.mul_comm, Nat.pow_one]
  have hresult : (v <<< 1) ||| (if c then 0x01 else 0x00) = BitVec.ofNat 8 (2 * v.toNat + c.toNat) := by
    rw [hsum]
    apply BitVec.eq_of_toNat_eq
    cases c <;> simp
  have hcarry : v.getLsbD 7 = decide (0x80 ≤ v.toNat) := BitVec.msb_eq_decide v
  rw [shiftRol, hresult, hcarry]

/-- The halved byte is below 0x80, so the old C takes the free bit 7. -/
theorem shiftRor_eq (v : Byte) (c : Bool) :
    shiftRor v c = (BitVec.ofNat 8 (v.toNat / 2 + 0x80 * c.toNat), decide (v.toNat % 2 = 1)) := by
  have hhalf : v.toNat >>> 1 < 2 ^ 7 := by omega
  have hsum : v.toNat / 2 + 0x80 * c.toNat = v.toNat >>> 1 ||| c.toNat <<< 7 := by
    rw [Nat.lor_comm, ← Nat.shiftLeft_add_eq_or_of_lt hhalf]
    omega
  have hbyte : v.toNat >>> 1 % 256 = v.toNat >>> 1 := by omega
  have hresult : (v >>> 1) ||| (if c then 0x80 else 0x00) = BitVec.ofNat 8 (v.toNat / 2 + 0x80 * c.toNat) := by
    rw [hsum]
    apply BitVec.eq_of_toNat_eq
    cases c <;> simp [hbyte]
  have hcarry : v.getLsbD 0 = decide (v.toNat % 2 = 1) := Nat.testBit_zero v.toNat
  rw [shiftRor, hresult, hcarry]

theorem shiftAsl_eq (v : Byte) (c : Bool) :
    shiftAsl v c = (BitVec.ofNat 8 (2 * v.toNat), decide (0x80 ≤ v.toNat)) :=
  calc shiftAsl v c
    _ = shiftRol v false := congrArg (·, v.getLsbD 7) BitVec.or_zero.symm
    _ = _ := shiftRol_eq v false

theorem shiftLsr_eq (v : Byte) (c : Bool) :
    shiftLsr v c = (BitVec.ofNat 8 (v.toNat / 2), decide (v.toNat % 2 = 1)) :=
  calc shiftLsr v c
    _ = shiftRor v false := congrArg (·, v.getLsbD 0) BitVec.or_zero.symm
    _ = _ := shiftRor_eq v false

/-- Settles O55: each mnemonic has the five modes of its family, and its shift is the one on integers. -/
theorem shiftResults : Obligations.ShiftResults :=
  ⟨asl_shiftMnemonic.shiftForms fun v p => by rw [shiftEffect, shiftAsl_eq],
    lsr_shiftMnemonic.shiftForms fun v p => by rw [shiftEffect, shiftLsr_eq],
    rol_shiftMnemonic.shiftForms fun v p => by rw [shiftEffect, shiftRol_eq, getLsbD_zero_toNat],
    ror_shiftMnemonic.shiftForms fun v p => by rw [shiftEffect, shiftRor_eq, getLsbD_zero_toNat]⟩

end Sys2Proof.Machine

/-! ## Control transfer (44_control_transfer.md)

Each instruction is said as one next state, through what it shares with others: the stacked word of JSR and RTS, the
entry of BRK, the return of RTI, and the one shape of the eight branches. -/

namespace Sys2Proof.Machine

/-- An instruction whose operand is a word: the opcode byte, then the word's low and high byte (R52). -/
theorem encodes_word {i : Instr} {op hi lo : Byte} (hwf : i.wf = true) (hop : i.opcode = some op)
    (hoperand : i.operandBytes = wordBytesLe (joinBytes hi lo)) : Encodes i [op, lo, hi] := by
  rw [← wordBytesLe_joinBytes, ← hoperand]
  exact encodes_of_opcode hwf hop

/-! ### JMP (R170) -/

theorem lowByte_add_one (w : Addr) : lowByte w + 1 = lowByte (w + 1) := by
  rw [lowByte_eq, lowByte_eq]
  bv_omega

/-- The page of one word with the low byte of another. -/
theorem joinBytes_highByte_lowByte (w v : Addr) :
    joinBytes (highByte w) (lowByte v) = (w &&& 0xFF00) ||| (v &&& 0x00FF) := by
  apply BitVec.eq_of_getLsbD_eq
  intro i hi
  rw [joinBytes, BitVec.getLsbD_append, highByte, lowByte]
  interval_cases i <;> simp

/-- The high byte of the target is read in the page of the low byte (R80). -/
theorem readJumpPointer_eq (w : Addr) (s : State) :
    readJumpPointer w s =
      (let w' := (w &&& 0xFF00) ||| ((w + 1) &&& 0x00FF)
       let b1 := s.bus.afterRead w
       (b1.answer w' ++ s.bus.answer w, { s with bus := b1.afterRead w' })) := by
  rw [readJumpPointer, lowByte_add_one, joinBytes_highByte_lowByte]
  rfl

/-- Settles O56: the target is the operand, or the word `readJumpPointer` reads at it. -/
theorem jmpForms : Obligations.JmpForms := by
  refine fun lo hi => ⟨⟨encodes_word rfl rfl rfl, fun _ => rfl⟩, encodes_word rfl rfl rfl, fun s => ?_⟩
  rw [exec, execJmp, readJumpPointer_eq]
  rfl

/-! ### JSR and RTS (R171, R172) -/

theorem pull16_eq (s : State) :
    pull16 s =
      (let b1 := s.bus.afterRead (stackByte (s.sp + 1))
       (b1.answer (stackByte (s.sp + 2)) ++ s.bus.answer (stackByte (s.sp + 1)),
        { s with sp := s.sp + 2, bus := b1.afterRead (stackByte (s.sp + 2)) })) := by
  have hsp : s.sp + 1 + 1 = s.sp + 2 := BitVec.add_assoc s.sp 1 1
  rw [pull16, pull_eq, pull_eq, hsp]
  rfl

/-- Settles O57: JSR is `push16` and RTS `pull16`, each with PC assigned. -/
theorem jsrRtsForms : Obligations.JsrRtsForms := by
  refine ⟨fun lo hi => ⟨encodes_word rfl rfl rfl, fun s => ?jsr⟩, encodes_of_opcode rfl rfl, fun s => ?rts⟩
  case jsr =>
    have hsp : s.sp - 1 - 1 = s.sp - 2 := BitVec.sub_sub s.sp 1 1
    rw [exec, execJsr, push16_eq, push_eq, push_eq, hsp]
    rfl
  case rts =>
    rw [exec, execRts, pull16_eq]
    rfl

/-- On RAM, the two bytes that a pushed word leaves on the stack. -/
theorem push16_peek (w : Addr) {s : State} (h : s.bus.platform ≠ .anyBus) :
    (push16 w s).bus.peek (stackByte (s.sp - 1)) = some (lowByte w) ∧
      (push16 w s).bus.peek (stackByte s.sp) = some (highByte w) := by
  have hram : (s.bus.write (stackByte s.sp) (highByte w)).platform ≠ .anyBus := by rwa [Bus.write_platform]
  have hne : s.sp ≠ s.sp - 1 := by bv_omega
  rw [push16, push_bus, push_sp, push_bus, stackAddr_eq, stackAddr_eq]
  constructor
  · rw [Bus.peek_write_stack hram, if_pos rfl]
  · rw [Bus.peek_write_stack hram, if_neg hne, Bus.peek_write_stack h, if_pos rfl]

/-- On RAM, a pull of a word finds the word pushed last, whatever became of the rest of the state in between. -/
theorem pull16_of_push16 (w : Addr) {s t : State} (h : s.bus.platform ≠ .anyBus) (hbus : t.bus = (push16 w s).bus)
    (hsp : t.sp = (push16 w s).sp) : (pull16 t).1 = w ∧ (pull16 t).2.sp = s.sp := by
  obtain ⟨hlo, hhi⟩ := push16_peek w h
  have hsp1 : t.sp + 1 = s.sp - 1 := by rw [hsp]; exact BitVec.sub_add_cancel (s.sp - 1) 1
  have hsp2 : t.sp + 2 = s.sp := by
    rw [← BitVec.sub_add_cancel s.sp 1, ← hsp1]
    exact (BitVec.add_assoc t.sp 1 1).symm
  rw [← hbus, ← hsp1] at hlo
  rw [← hbus, ← hsp2] at hhi
  rw [pull16_eq]
  refine ⟨?_, hsp2⟩
  dsimp only
  rw [Bus.answer_of_peek hlo, Bus.answer_of_peek ((Bus.peek_afterRead ..).trans hhi)]
  exact joinBytes_high_low w

/-- Settles O25: RTS pulls the word that JSR pushed, PC + 2, and adds 1. -/
theorem rtsReturnsAfterJsr : Obligations.RtsReturnsAfterJsr := by
  intro s w pc' hram
  obtain ⟨hword, hsp⟩ := pull16_of_push16 (t := { finishAt w 6 (push16 (s.pc + 2) s) with pc := pc' })
    (s.pc + 2) hram rfl rfl
  refine ⟨_, _, rfl, rfl, rfl, ?_, hsp⟩
  exact (congrArg (· + 1) hword).trans (BitVec.add_assoc s.pc 2 1)

/-! ### Branches (R173 to R180) -/

/-- The target, from exact integers (R83). -/
theorem branchTarget_eq_ofInt (pc : Addr) (off : Byte) :
    pc + 2 + off.signExtend 16 = BitVec.ofInt 16 (pc.toNat + 2 + off.toInt) := by
  rw [BitVec.ofInt_add, BitVec.ofInt_add, BitVec.ofInt_natCast, BitVec.ofNat_toNat, BitVec.setWidth_eq]
  rfl

theorem branchCost_eq (taken : Bool) (next target : Addr) :
    branchCost taken next target =
      if taken then (if next &&& 0xFF00 = target &&& 0xFF00 then 3 else 4) else 2 := by
  simp only [branchCost, differentPage_iff, ne_eq, ite_not]

theorem branchIf_eq (taken : Bool) (off : Byte) (s : State) :
    branchIf taken off s = .next
      (let next := s.pc + 2
       let target := BitVec.ofInt 16 (s.pc.toNat + 2 + off.toInt)
       { s with
          pc := if taken then target else next
          cycles := s.cycles + (if taken then (if next &&& 0xFF00 = target &&& 0xFF00 then 3 else 4) else 2) }) := by
  rw [branchIf, branchTarget_eq_ofInt, branchCost_eq]
  rfl

/-- A flag is its bit of P under the mask (R26). -/
theorem State.flag_eq_decide (f : Flag) (s : State) :
    s.flag f = decide (s.p &&& BitVec.twoPow 8 f.position ≠ 0) := by
  have hbit : ∀ p : Byte, p.getLsbD f.position = decide (p &&& BitVec.twoPow 8 f.position ≠ 0) := by
    cases f <;> decide +kernel
  exact hbit s.p

section
variable {mk : Byte → Instr} {op : Byte} {f : Flag} (hencodes : ∀ off, Encodes (mk off) [op, off])
include hencodes

/-- A branch taken when a flag is 1. -/
theorem branchForm_of_set (hexec : ∀ off s, exec (mk off) s = branchIf (s.flag f) off s) :
    BranchForm mk op fun s => decide (s.p &&& BitVec.twoPow 8 f.position ≠ 0) := by
  refine fun off => ⟨hencodes off, fun s => ?_⟩
  rw [hexec, branchIf_eq, State.flag_eq_decide]

/-- A branch taken when a flag is 0. -/
theorem branchForm_of_clear (hexec : ∀ off s, exec (mk off) s = branchIf (!s.flag f) off s) :
    BranchForm mk op fun s => decide (s.p &&& BitVec.twoPow 8 f.position = 0) := by
  refine fun off => ⟨hencodes off, fun s => ?_⟩
  rw [hexec, branchIf_eq, State.flag_eq_decide, decide_not, Bool.not_not]

end

/-- Settles O58: all eight are `branchIf`, on one of four flags or on its negation. -/
theorem branchForms : Obligations.BranchForms :=
  ⟨branchForm_of_clear (f := .negative) (fun _ => encodes_of_opcode rfl rfl) fun _ _ => rfl,
    branchForm_of_set (f := .negative) (fun _ => encodes_of_opcode rfl rfl) fun _ _ => rfl,
    branchForm_of_clear (f := .overflow) (fun _ => encodes_of_opcode rfl rfl) fun _ _ => rfl,
    branchForm_of_set (f := .overflow) (fun _ => encodes_of_opcode rfl rfl) fun _ _ => rfl,
    branchForm_of_clear (f := .carry) (fun _ => encodes_of_opcode rfl rfl) fun _ _ => rfl,
    branchForm_of_set (f := .carry) (fun _ => encodes_of_opcode rfl rfl) fun _ _ => rfl,
    branchForm_of_clear (f := .zero) (fun _ => encodes_of_opcode rfl rfl) fun _ _ => rfl,
    branchForm_of_set (f := .zero) (fun _ => encodes_of_opcode rfl rfl) fun _ _ => rfl⟩

/-! ### BRK and RTI (R181, R182) -/

/-- Settles O11: BRK is an entry with PC + 2 as return address and bit 4 pushed as 1. -/
theorem brkEntersThroughIrqVector : Obligations.BrkEntersThroughIrqVector := by
  refine ⟨encodes_of_opcode rfl rfl, fun s => ?_⟩
  rw [exec, execBrk, takeException_eq, pushImage_true]
  rfl

/-- Settles O12: RTI is `returnFromException` and its cost. -/
theorem rtiPullsStatusThenPc : Obligations.RtiPullsStatusThenPc := by
  refine ⟨encodes_of_opcode rfl rfl, fun s => ?_⟩
  rw [exec, execRti, returnFromException_eq]
  rfl

end Sys2Proof.Machine

/-! ## Flags, NOP and unofficial opcodes (45_flags_misc.md)

A flag instruction is `writeFlag`, said as a mask of P: the flag's bit is ORed in, or its complement ANDed. -/

namespace Sys2Proof.Machine

/-! ### The seven flag instructions (R190 to R196) -/

section
variable {i : Instr} {op mask : Byte} {f : Flag} (hencodes : Encodes i [op])
include hencodes

/-- An instruction that sets a flag. -/
theorem impliedForm_of_setFlag (hexec : ∀ s, exec i s = writeFlag f true s) (hmask : mask = 1#8 <<< f.position) :
    ImpliedForm i op 2 fun s => { s with p := s.p ||| mask } := by
  refine ⟨hencodes, fun s => ?_⟩
  rw [hexec, hmask]
  rfl

/-- An instruction that clears a flag. -/
theorem impliedForm_of_clearFlag (hexec : ∀ s, exec i s = writeFlag f false s)
    (hmask : mask = ~~~(1#8 <<< f.position)) : ImpliedForm i op 2 fun s => { s with p := s.p &&& mask } := by
  refine ⟨hencodes, fun s => ?_⟩
  rw [hexec, hmask]
  rfl

end

/-- Settles O59: all seven are `writeFlag`, on one of four flags. -/
theorem flagForms : Obligations.FlagForms :=
  ⟨impliedForm_of_clearFlag (f := .carry) (encodes_of_opcode rfl rfl) (fun _ => rfl) rfl,
    impliedForm_of_setFlag (f := .carry) (encodes_of_opcode rfl rfl) (fun _ => rfl) rfl,
    impliedForm_of_clearFlag (f := .interruptDisable) (encodes_of_opcode rfl rfl) (fun _ => rfl) rfl,
    impliedForm_of_setFlag (f := .interruptDisable) (encodes_of_opcode rfl rfl) (fun _ => rfl) rfl,
    impliedForm_of_clearFlag (f := .overflow) (encodes_of_opcode rfl rfl) (fun _ => rfl) rfl,
    impliedForm_of_clearFlag (f := .decimal) (encodes_of_opcode rfl rfl) (fun _ => rfl) rfl,
    impliedForm_of_setFlag (f := .decimal) (encodes_of_opcode rfl rfl) (fun _ => rfl) rfl⟩

/-! ### NOP and the unofficial opcodes (R197, R198) -/

/-- Settles O60: both are `finish` alone, and `.unofficial op` is well formed for the bytes of R87. -/
theorem noOperationForms : Obligations.NoOperationForms := by
  refine ⟨⟨encodes_of_opcode rfl rfl, fun _ => rfl⟩, fun op hop => ⟨?encodes, fun _ => rfl⟩⟩
  case encodes =>
    have hwf : (Instr.unofficial op).wf = true := List.contains_iff_mem.mpr hop
    exact encodes_of_opcode hwf rfl

end Sys2Proof.Machine

/-! ## Interrupts (60_exceptions.md)

The poll is one entry or nothing: an equation for each of its three outcomes. That RTI undoes an entry is read off the
three bytes that the entry leaves on the stack. -/

namespace Sys2Proof.Machine

/-! ### The poll (R216 to R219) -/

theorem pushImage_false (p : Byte) : pushImage p false = (p &&& 0xCF) ||| 0x20 := BitVec.or_zero

theorem State.flag_interruptDisable_iff (s : State) : s.flag .interruptDisable = true ↔ s.p &&& 0x04 ≠ 0 := by
  rw [State.flag_eq_decide]
  exact decide_eq_true_iff

section
variable {s : State}

theorem pollInterrupts_of_nmi (hnmi : s.nmiPending = true) :
    pollInterrupts s = takeException Config.nmiVector s.pc false { s with nmiPending := false } := if_pos hnmi

theorem pollInterrupts_of_irq (hnmi : s.nmiPending = false) (hirq : s.irqPending = true) (hi : s.p &&& 0x04 = 0) :
    pollInterrupts s = takeException Config.irqVector s.pc false { s with irqPending := false } := by
  have hflag : s.flag .interruptDisable = false :=
    Bool.eq_false_iff.mpr fun hset => s.flag_interruptDisable_iff.mp hset hi
  simp [pollInterrupts, hnmi, hirq, hflag]

theorem pollInterrupts_idle (hnmi : s.nmiPending = false) (h : s.irqPending = false ∨ s.p &&& 0x04 ≠ 0) :
    pollInterrupts s = s := by
  rw [← s.flag_interruptDisable_iff] at h
  rcases h with hirq | hflag
  · simp [pollInterrupts, hnmi, hirq]
  · simp [pollInterrupts, hnmi, hflag]

end

/-- All that a poll can do: nothing, or one entry that differs from another in its vector and the pending flags. -/
theorem pollInterrupts_cases (s : State) :
    pollInterrupts s = s ∨ ∃ vec nmi irq,
      pollInterrupts s = takeException vec s.pc false { s with nmiPending := nmi, irqPending := irq } := by
  unfold pollInterrupts
  split
  · exact .inr ⟨_, _, _, rfl⟩
  · split
    · exact .inr ⟨_, _, _, rfl⟩
    · exact .inl rfl

/-- Settles O9: the three outcomes of the poll, each entry in the manual's terms by `takeException_eq`. -/
theorem pollEntersOneInterrupt : Obligations.PollEntersOneInterrupt := by
  refine fun s => ⟨fun hnmi => ?nmi, fun hnmi hirq hi => ?irq, pollInterrupts_idle⟩
  case nmi =>
    rw [pollInterrupts_of_nmi hnmi, takeException_eq, pushImage_false]
    rfl
  case irq =>
    rw [pollInterrupts_of_irq hnmi hirq hi, takeException_eq, pushImage_false]
    rfl

@[simp] theorem takeException_p (vec ret : Addr) (b : Bool) (s : State) :
    (takeException vec ret b s).p = s.p ||| 0x04 := rfl

@[simp] theorem takeException_sp (vec ret : Addr) (b : Bool) (s : State) :
    (takeException vec ret b s).sp = s.sp - 3 := by
  rw [takeException_eq]
  rfl

theorem takeException_flag_interruptDisable (vec ret : Addr) (b : Bool) (s : State) :
    (takeException vec ret b s).flag .interruptDisable = true := by
  simp [State.flag, Flag.position]

/-- Settles O10: the poll is the NMI's entry, which sets I, so the second poll is idle. -/
theorem nmiGoesBeforeIrq : Obligations.NmiGoesBeforeIrq := by
  intro s hnmi hirq
  rw [pollInterrupts_of_nmi hnmi]
  refine ⟨hirq, rfl, pollInterrupts_idle rfl (.inr ?_), rfl⟩
  exact (State.flag_interruptDisable_iff _).mp (takeException_flag_interruptDisable ..)

/-- Settles O14: a poll that is not idle is an entry, whose writes are its three pushes. -/
theorem entryFrame : Obligations.EntryFrame := by
  intro s
  rcases pollInterrupts_cases s with hpoll | ⟨vec, nmi, irq, hpoll⟩
  · rw [hpoll]
    exact ⟨rfl, rfl, rfl, .inl rfl, .inl rfl, .refl _ s⟩
  · rw [hpoll]
    exact ⟨rfl, rfl, rfl, .inr rfl, .inr (takeException_sp ..), takeException_sameStorageBut vec s.pc false _⟩

/-- Settles O17: each input assigns one flag, and a poll that finds the IRQ masked is idle. -/
theorem interruptInputsLatch : Obligations.InterruptInputsLatch := by
  refine fun s => ⟨rfl, rfl, rfl, fun hirq hi hnmi => ?masked⟩
  case masked => rw [pollInterrupts_idle hnmi (.inr hi), hirq]

/-! ### RTI after an entry (R221) -/

/-- The byte that an entry pushed, pulled by RTI into the P that the entry left: bit 4 comes from that P, and the I
that the entry set is overwritten (R34, R35). -/
theorem pullImage_pushImage (p : Byte) (b : Bool) : pullImage (pushImage p b) (p ||| 0x04) = p ||| 0x20 := by
  cases b <;> apply byte_ext <;> simp [pullImage, pushImage]

/-- On RAM, an entry leaves the return address and below it the status byte on the stack. -/
theorem takeException_peek (vec ret : Addr) (b : Bool) {s : State} (h : s.bus.platform ≠ .anyBus) :
    (takeException vec ret b s).bus.peek (stackByte (s.sp - 2)) = some (pushImage s.p b) ∧
      (takeException vec ret b s).bus.peek (stackByte (s.sp - 1)) = some (lowByte ret) ∧
      (takeException vec ret b s).bus.peek (stackByte s.sp) = some (highByte ret) := by
  have hsp : (push16 ret s).sp = s.sp - 2 := BitVec.sub_sub s.sp 1 1
  have hram : (push16 ret s).bus.platform ≠ .anyBus := by simpa [push16] using h
  have hpeek (sp : Byte) : (takeException vec ret b s).bus.peek (stackByte sp) =
      if sp = s.sp - 2 then some (pushImage s.p b) else (push16 ret s).bus.peek (stackByte sp) := by
    change (push (pushImage s.p b) (push16 ret s)).bus.peek (stackByte sp) = _
    rw [push_bus, stackAddr_eq, Bus.peek_write_stack hram, hsp]
  have hne1 : s.sp - 1 ≠ s.sp - 2 := by bv_omega
  have hne : s.sp ≠ s.sp - 2 := by bv_omega
  obtain ⟨hlo, hhi⟩ := push16_peek ret h
  rw [hpeek, hpeek, hpeek, if_pos rfl, if_neg hne1, if_neg hne]
  exact ⟨rfl, hlo, hhi⟩

/-- On RAM, the return from an exception leaves of the entry only its cost, its accesses and bit 5 of P. -/
theorem returnFromException_takeException (vec ret : Addr) (b : Bool) {s : State} (h : s.bus.platform ≠ .anyBus) :
    ∃ bus, returnFromException (takeException vec ret b s) =
      { s with pc := ret, p := s.p ||| 0x20, cycles := s.cycles + 7, bus := bus } := by
  obtain ⟨hstatus, hlo, hhi⟩ := takeException_peek vec ret b h
  have h1 : s.sp - 3 + 1 = s.sp - 2 := by bv_omega
  have h2 : s.sp - 3 + 2 = s.sp - 1 := by bv_omega
  rw [returnFromException_eq]
  simp only [takeException_sp, takeException_p, h1, h2, BitVec.sub_add_cancel, Bus.answer_of_peek hstatus,
    Bus.answer_of_peek ((Bus.peek_afterRead ..).trans hlo),
    Bus.answer_of_peek ((Bus.peek_afterRead ..).trans ((Bus.peek_afterRead ..).trans hhi)),
    joinBytes_high_low, pullImage_pushImage]
  exact ⟨_, rfl⟩

/-- Settles O13: RTI is `returnFromException` and 6 cycles more. -/
theorem rtiUndoesEntry : Obligations.RtiUndoesEntry := by
  intro s vec ret b hram
  obtain ⟨bus, hreturn⟩ := returnFromException_takeException vec ret b hram
  refine ⟨_, rfl, ?_⟩
  rw [hreturn]
  exact ⟨rfl, rfl, rfl, rfl, rfl, rfl, rfl, rfl, rfl⟩

end Sys2Proof.Machine

/-! ## Reset, the step and runs (70_reset_and_hazards.md)

A step is the poll, the fetch and one instruction: each completes, the fetch reads the instruction's own bytes, and the
cycles of an entry and of the instruction add up. A run is an induction over its events with what one event does. -/

namespace Sys2Proof.Machine

/-! ### Completion (R244) -/

theorem Completes.exists_next {R : Reg → Bool} {F : Flag → Bool} {s : State} {r : Result} (h : Completes R F s r) :
    ∃ t, r = .next t := by
  cases h with
  | next _ => exact ⟨_, rfl⟩

/-- Settles O7: by `exec_completes`, for the instruction that the step fetches too. -/
theorem coreNeverStops : Obligations.CoreNeverStops :=
  ⟨fun _ => (exec_completes _ _).exists_next, fun i s => (exec_completes i s).exists_next⟩

/-! ### The fetch (R245, R55) -/

section
variable {s : State}

theorem fetch_one (h : opcodeLength (s.bus.answer s.pc) = 1) :
    fetch s = (decodeOpcode (s.bus.answer s.pc) 0 0, { s with bus := s.bus.afterReads s.pc 1 }) := by
  simp only [fetch, memRead_value, h]
  rfl

theorem fetch_two (h : opcodeLength (s.bus.answer s.pc) = 2) :
    fetch s = (decodeOpcode (s.bus.answer s.pc) ((s.bus.afterReads s.pc 1).answer (s.pc + 1)) 0,
      { s with bus := s.bus.afterReads s.pc 2 }) := by
  simp only [fetch, memRead_value, h]
  rfl

theorem fetch_three (h : opcodeLength (s.bus.answer s.pc) = 3) :
    fetch s = (decodeOpcode (s.bus.answer s.pc) ((s.bus.afterReads s.pc 1).answer (s.pc + 1))
        ((s.bus.afterReads s.pc 2).answer (s.pc + 1 + 1)),
      { s with bus := s.bus.afterReads s.pc 3 }) := by
  have hpc : s.pc + 2 = s.pc + 1 + 1 := (BitVec.add_assoc s.pc 1 1).symm
  simp only [fetch, memRead_value, h, hpc]
  rfl

/-- A fetch where the bus answers an opcode byte and as many bytes as it asks for. -/
theorem fetch_of_answersRun {op : Byte} {bs : List Byte} (hlen : bs.length + 1 = opcodeLength op)
    (h : s.bus.answersRun s.pc (op :: bs)) :
    fetch s = (decodeOpcode op (bs.getD 0 0) (bs.getD 1 0),
      { s with bus := s.bus.afterReads s.pc (op :: bs).length }) := by
  match bs, hlen, h with
  | [], hlen, ⟨rfl, _⟩ => exact fetch_one hlen.symm
  | [_], hlen, ⟨rfl, rfl, _⟩ => exact fetch_two hlen.symm
  | [_, _], hlen, ⟨rfl, rfl, rfl, _⟩ => exact fetch_three hlen.symm
  | _ :: _ :: _ :: _, hlen, _ =>
    have := opcodeLength_cases op
    simp only [List.length_cons] at hlen
    omega

/-- Where the bus answers the bytes of an instruction, the fetch reads them and finds that instruction. -/
theorem fetch_of_encode {i : Instr} (hwf : i.wf = true) (h : s.bus.answersRun s.pc (encode i)) :
    fetch s = (i, { s with bus := s.bus.afterReads s.pc (encode i).length }) := by
  obtain ⟨op, hop, hdec⟩ := exists_opcode_decodeOpcode hwf
  rw [encode_of_opcode hop] at h ⊢
  rw [fetch_of_answersRun (Instr.operandBytes_length hwf hop) h, hdec, i.withBytes_operandBytes]

end

/-- What is fetched is a row of the map. -/
theorem fetch_wf (s : State) : (fetch s).1.wf = true := by
  rcases opcodeLength_cases (s.bus.answer s.pc) with h | h | h
  · simp only [fetch_one h, decodeOpcode_wf]
  · simp only [fetch_two h, decodeOpcode_wf]
  · simp only [fetch_three h, decodeOpcode_wf]

/-- Settles O6: the fetch after the poll finds `i`, and the step executes what it fetched. -/
theorem stepRunsDecodedInstruction : Obligations.StepRunsDecodedInstruction := by
  intro s i hwf u hbytes
  rw [step, fetch_of_encode hwf hbytes]

/-! ### What an instruction costs (R250 to R253) -/

/-- The answer is a next state, 2 to 7 cycles later. -/
inductive CostsTwoToSeven (s : State) : Result → Prop where
  | next {t : State} {cost : Nat} (ht : t.cycles = s.cycles + cost) (hcost : 2 ≤ cost ∧ cost ≤ 7) :
    CostsTwoToSeven s (.next t)

theorem ReadsOf.cycles_eq {s t : State} (h : ReadsOf s t) : t.cycles = s.cycles := by
  obtain ⟨_, _, rfl⟩ := h
  rfl

theorem readCost_bounds (m : ReadMode) (crossed : Bool) : 2 ≤ readCost m crossed ∧ readCost m crossed ≤ 7 := by
  have := crossed.toNat_le
  cases m with
  | imm v => simp [readCost]
  | mem m => cases m <;> simp only [readCost] <;> omega

theorem storeCost_bounds (m : MemMode) : 2 ≤ storeCost m ∧ storeCost m ≤ 7 := by
  cases m <;> simp [storeCost]

/-- In the modes that the opcode map has: a read-modify-write through a pointer would cost 8 (log 10). -/
theorem modifyCost_bounds {m : MemMode} (h : m.isModify = true) : 2 ≤ modifyCost m ∧ modifyCost m ≤ 7 := by
  cases m <;> simp [modifyCost, MemMode.isModify] at h ⊢

theorem branchCost_bounds (taken : Bool) (next target : Addr) :
    2 ≤ branchCost taken next target ∧ branchCost taken next target ≤ 7 := by
  unfold branchCost
  split_ifs <;> decide

section
variable {s : State}

theorem withOperand_cost (m : ReadMode) {f : Byte → State → State} (hf : ∀ v t, (f v t).cycles = t.cycles) :
    CostsTwoToSeven s (withOperand m f s) :=
  .next (by rw [finish_cycles, hf, (readOperand_reads m s).cycles_eq]) (readCost_bounds _ _)

theorem loadReg_cost (r : Reg) (m : ReadMode) : CostsTwoToSeven s (loadReg r m s) :=
  withOperand_cost m fun v t => State.setReg_cycles r v t

theorem logicA_cost (f : Byte → Byte → Byte) (m : ReadMode) : CostsTwoToSeven s (logicA f m s) :=
  withOperand_cost m fun _ _ => rfl

theorem compareReg_cost (r : Reg) (m : ReadMode) : CostsTwoToSeven s (compareReg r m s) :=
  withOperand_cost m fun _ _ => rfl

theorem storeReg_cost (r : Reg) (m : MemMode) : CostsTwoToSeven s (storeReg r m s) := by
  rw [storeReg_eq]
  exact .next rfl (storeCost_bounds m)

theorem updateReg_cost (r : Reg) (v : Byte) : CostsTwoToSeven s (updateReg r v s) :=
  .next (congrArg (· + 2) (State.setReg_cycles r v s)) (by decide)

theorem transferNZ_cost (src dst : Reg) : CostsTwoToSeven s (transferNZ src dst s) :=
  updateReg_cost dst (s.getReg src)

theorem modifyMem_cost (f : Byte → Byte) {m : MemMode} (h : m.isModify = true) :
    CostsTwoToSeven s (modifyMem f m s) := by
  rw [modifyMem_eq]
  exact .next rfl (modifyCost_bounds h)

theorem shift_cost (f : Byte → Bool → Shifted) {m : ShiftMode} (h : m.ok = true) :
    CostsTwoToSeven s (shift f m s) := by
  cases m with
  | acc => exact .next rfl (by decide)
  | mem m =>
    rw [shift_mem_eq]
    exact .next rfl (modifyCost_bounds h)

theorem execJmp_cost (m : JumpMode) : CostsTwoToSeven s (execJmp m s) := by
  cases m with
  | abs w => exact .next (cost := 3) rfl (by decide)
  | ind w => exact .next (cost := 5) rfl (by decide)

theorem branchIf_cost (taken : Bool) (off : Byte) : CostsTwoToSeven s (branchIf taken off s) :=
  .next rfl (branchCost_bounds _ _ _)

end

@[simp] theorem takeException_cycles (vec ret : Addr) (b : Bool) (s : State) :
    (takeException vec ret b s).cycles = s.cycles + 7 := rfl

/-- Every instruction of the opcode map costs 2 to 7 cycles. -/
theorem exec_cost {i : Instr} (s : State) (h : i.wf = true) : CostsTwoToSeven s (exec i s) := by
  cases i with
  | lda m => exact loadReg_cost .a m
  | ldx m => exact loadReg_cost .x m
  | ldy m => exact loadReg_cost .y m
  | sta m => exact storeReg_cost .a m
  | stx m => exact storeReg_cost .x m
  | sty m => exact storeReg_cost .y m
  | tax => exact transferNZ_cost .a .x
  | tay => exact transferNZ_cost .a .y
  | tsx => exact transferNZ_cost .sp .x
  | txa => exact transferNZ_cost .x .a
  | tya => exact transferNZ_cost .y .a
  | pha | php => exact .next (cost := 3) rfl (by decide)
  | pla | plp => exact .next (cost := 4) rfl (by decide)
  | adc m => exact withOperand_cost m addToA_cycles
  | sbc m => exact withOperand_cost (f := fun v t => addToA (v ^^^ 0xFF) t) m fun _ _ => rfl
  | and m | ora m | eor m => exact logicA_cost _ m
  | cmp m => exact compareReg_cost .a m
  | cpx m => exact compareReg_cost .x m
  | cpy m => exact compareReg_cost .y m
  | bit m => exact withOperand_cost (.mem m) bitFlags_cycles
  | inc m => exact modifyMem_cost (fun v => v + 1) h
  | dec m => exact modifyMem_cost (fun v => v - 1) h
  | inx | dex => exact updateReg_cost .x _
  | iny | dey => exact updateReg_cost .y _
  | asl m | lsr m | rol m | ror m => exact shift_cost _ h
  | jmp m => exact execJmp_cost m
  | jsr _ | rts | rti => exact .next (cost := 6) rfl (by decide)
  | bpl off | bmi off | bvc off | bvs off | bcc off | bcs off | bne off | beq off => exact branchIf_cost _ off
  | brk => exact .next (takeException_cycles _ _ true s) (by decide)
  | txs | clc | sec | cli | sei | clv | cld | sed | nop | unofficial _ => exact .next (cost := 2) rfl (by decide)

theorem exec_cycles_bounds {i : Instr} {s t : State} (hwf : i.wf = true) (h : exec i s = .next t) :
    s.cycles + 2 ≤ t.cycles ∧ t.cycles ≤ s.cycles + 7 := by
  have hexec := exec_cost s hwf
  rw [h] at hexec
  cases hexec with
  | next ht hcost => omega

/-- The poll costs nothing, or the 7 cycles of an entry. -/
theorem pollInterrupts_cycles (s : State) :
    (pollInterrupts s).cycles = s.cycles ∨ (pollInterrupts s).cycles = s.cycles + 7 := by
  rcases pollInterrupts_cases s with hpoll | ⟨vec, nmi, irq, hpoll⟩
  · exact .inl (by rw [hpoll])
  · exact .inr (by rw [hpoll, takeException_cycles])

/-- Settles O8: the poll's cost and the instruction's; the fetch costs nothing, and finds only rows of the map. -/
theorem stepCycleBounds : Obligations.StepCycleBounds := by
  intro s t ht
  have hpoll := pollInterrupts_cycles s
  have hfetch := (fetch_reads (pollInterrupts s)).cycles_eq
  have hexec := exec_cycles_bounds (fetch_wf (pollInterrupts s)) ht
  omega

/-! ### Reset (R240, R241) -/

/-- Settles O15: the model's reset is the assignments and the two vector reads of R240. -/
theorem resetLoadsVector : Obligations.ResetLoadsVector := fun _ => rfl

/-- Settles O16: the constructed state's vector is two unlisted bytes of the program window. -/
theorem resetStateIsResetOfConstruction : Obligations.ResetStateIsResetOfConstruction :=
  ⟨rfl, resetLoadsVector State.constructed⟩

/-! ### Runs (R230, R244) -/

theorem restoreImage_cycles {img : List Byte} {s u : State} (h : restoreImage img s = some u) : u.cycles = s.cycles := by
  unfold restoreImage at h
  split at h
  · split at h <;> cases h
    rfl
  · cases h

/-- No action of the environment lowers the counter: the port and an image cannot write it, and reset adds 7 (R40, R41,
R240). -/
theorem environment_cycles_le (e : EnvAction) (s : State) : s.cycles ≤ (environment e s).cycles := by
  cases e with
  | latchNmi | requestIrq | stepDevices tag | paused => exact le_rfl
  | port w =>
    obtain ⟨-, hcycles, -⟩ := statePortReadsBack s w
    exact hcycles.ge
  | reset =>
    have hcycles : (resetCore s).cycles = s.cycles + 7 := congrArg State.cycles (resetLoadsVector s)
    exact hcycles ▸ Nat.le_add_right s.cycles 7
  | restore img =>
    change s.cycles ≤ ((restoreImage img s).getD s).cycles
    cases hu : restoreImage img s with
    | none => exact le_rfl
    | some u => exact (restoreImage_cycles hu).ge

/-- Settles O40, by induction on the events: one step completes, keeps the invariant and raises the counter, and one
action of the environment keeps the invariant and does not lower it. -/
theorem runsCompleteAndKeepInvariant : Obligations.RunsCompleteAndKeepInvariant := by
  intro es
  induction es with
  | nil => exact fun s hs => ⟨s, rfl, hs, le_rfl⟩
  | cons e es ih =>
    intro s hs
    cases e with
    | step =>
      obtain ⟨u, hu⟩ := coreNeverStops.1 s
      obtain ⟨t, ht, hinv, hle⟩ := ih u (stepKeepsInvariant s u hs hu)
      have hcost := (stepCycleBounds s u hu).1
      exact ⟨t, by rw [runEvents, hu]; exact ht, hinv, by omega⟩
    | env a =>
      obtain ⟨t, ht, hinv, hle⟩ := ih (environment a s) (environmentKeepsInvariant a s hs)
      exact ⟨t, ht, hinv, (environment_cycles_le a s).trans hle⟩

end Sys2Proof.Machine
